-- ==== Sys2Proof/Word.lean ====
section
/-! DEFINITION. The bit-string types of 00_scope.md rule R8 and the fixed parameters of rule R5. -/

namespace Sys2Proof

/-- A bit string of width 4 (R8). -/
abbrev Nibble := BitVec 4

/-- A bit string of width 8 (R8). -/
abbrev Byte := BitVec 8

/-- A bit string of width 32 (R8). -/
abbrev Word := BitVec 32

/-- `FRAME_LEN` of R5: bytes in a frame, `1 + PAYLOAD_LEN + 1`. -/
abbrev frameLen : Nat := 50

/-- `PAYLOAD_LEN` of R5: nibble-carrying bytes in a frame, six words of eight nibbles. -/
abbrev payloadLen : Nat := 48

/-- `NIBS_PER_WORD` of R5: nibbles, and so message bytes, per word. -/
abbrev nibsPerWord : Nat := 8

/-- `START_IDX` of R5. -/
abbrev startIdx : Nat := 0

/-- `END_IDX` of R5. -/
abbrev endIdx : Nat := 49

end Sys2Proof
end

