-- ==== Sys2Proof/Config.lean ====
section
/-! DEFINITION. The constants of one instance of the block (R6, R7, R19) and the free functions behind the one payload
rule the spec does not list (93_implementation_defined.md U1) and the token spellings it leaves open (N12). -/

namespace Sys2Proof

/-- `HIGH_NIBBLE_POLICY` (R7, R58): what `DEC` does with a payload byte above `0x0F`. The first four are the spec's named
values. `unlisted` is any other rule: U1 says the source is silent here, so its effect on such a byte is free
(`Config.freeWord`, `Config.freeReject`). On bytes at most `0x0F` all five agree. -/
inductive HighNibblePolicy where
  | mask
  | orWrap
  | addWrap
  | reject
  | unlisted
  deriving DecidableEq, Repr

/-- The constants of an instance of the block: "fixed before its first operation and never written" (R19).
`stop` is the spec's `END`. `maxLen = none` is an unbounded input (R15, U11). -/
structure Config where
  start : Byte
  stop : Byte
  policy : HighNibblePolicy
  maxLen : Option Nat
  deriving DecidableEq, Repr

/-- FREE VALUE (U1, log 5): under the policy `unlisted`, the word that the eight bytes of a word place are read as, where one of
them is above `0x0F`. It is not told which word it is (R22). Nothing is known of it. -/
opaque Config.freeWord : (place : List Byte) → Word

/-- FREE VALUE (U1, log 5): under the policy `unlisted`, whether the eight bytes of a word place, one of them above `0x0F`, make
the message malformed. It is not told which word it is (R22). Nothing is known of it. -/
opaque Config.freeReject : (place : List Byte) → Bool

/-- FREE VALUE (N12, log 16): what the environment's reader makes of a hexadecimal token that has a sign or is above
`0xFFFFFFFF`: some word, or a bad token. Nothing is known of it. -/
opaque Config.freeToken : List Char → Option Word

end Sys2Proof
end

