-- ==== Sys2Proof/Syntax.lean ====
section
/-! DEFINITION. The values the block moves (records and messages) and its two operations (30_encoding.md rules R50, R60). -/

namespace Sys2Proof

/-- A property record (R9, R50): an ordered sequence of exactly six unsigned 32-bit words. -/
structure Record where
  w0 : Word
  w1 : Word
  w2 : Word
  w3 : Word
  w4 : Word
  w5 : Word
  deriving DecidableEq, Repr

/-- `ZERO6` (R8): the record of six zero words. -/
def zero6 : Record := ⟨0, 0, 0, 0, 0, 0⟩

/-- A byte message (R14, R30): a finite sequence of bytes indexed from 0, of any length. -/
abbrev Message := List Byte

/-- The two units (R10). "An operation is selected by which unit is asked, not by a code" (R60). -/
inductive CodecUnit where
  | encoder
  | decoder
  deriving DecidableEq, Repr

/-- The whole operation set (R60), one constructor per row of spec/opcode_table.json. An operation is asked for together
with the value presented on its unit's input port (R17, R25), so that value is its operand. -/
inductive Instr where
  /-- `ENC` (R70, R71): the record presented on `REC_IN`. -/
  | enc (r : Record)
  /-- `DEC` (R85, R89): the message presented on `MSG_IN`. -/
  | dec (m : Message)
  deriving DecidableEq, Repr

/-- The unit that performs an operation (R10). -/
def Instr.unit : Instr → CodecUnit
  | .enc _ => .encoder
  | .dec _ => .decoder

end Sys2Proof
end

