-- ==== Sys2Proof/Machine/Defaults.lean ====
section
/-! DEFINITION. The spec's default constants (R6, R7, 92_eei_decisions.md D1 to D4), used by the power-on state and by the
reading of spec/opcode_table.json, PRESUMED by the spec itself (G1, G2) and not given by its source (log 4); and the values
of the input ports while nothing is presented on them, the model's own (log 8). -/

namespace Sys2Proof.Machine

/-- The default `START` (R6, D1). PRESUMED. -/
def defaultStart : Byte := 0xF0

/-- The default `END` (R6, D2). PRESUMED. -/
def defaultStop : Byte := 0xF7

/-- The default `HIGH_NIBBLE_POLICY` (R7, D3), the spec's own decision. -/
def defaultPolicy : HighNibblePolicy := .mask

/-- An instance with the defaults, and no bound on the length of a message (U11, log 6). -/
def defaultConfig : Config :=
  { start := defaultStart, stop := defaultStop, policy := defaultPolicy, maxLen := none }

/-- DESIGN CHOICE (log 8): the six words of `REC_IN` while nothing is presented. R24: "no reset value; unspecified until the
environment presents a record". -/
def unpresentedRecord : Record := zero6

/-- DESIGN CHOICE (log 8): the message of `MSG_IN` while nothing is presented. R24: "no reset value". -/
def unpresentedMessage : Message := []

end Sys2Proof.Machine
end

