-- ==== Sys2Proof/WellFormed.lean ====
section
/-! DEFINITION. Which constants an instance may have (R6, R7, R15) and which operands its ports can carry (R12, R14). -/

namespace Sys2Proof

/-- `START` and `END` are in `0xF0 .. 0xFF` (R6). They may be equal (D17). -/
def Config.markersLegal (c : Config) : Bool :=
  decide (0xF0#8 ≤ c.start) && decide (0xF0#8 ≤ c.stop)

/-- `MAX_LEN >= 50` (R15), or no bound. -/
def Config.maxLenLegal (c : Config) : Bool :=
  match c.maxLen with
  | none => true
  | some n => decide (50 ≤ n)

/-- The constants are ones the spec allows. -/
def Config.legal (c : Config) : Bool := c.markersLegal && c.maxLenLegal

/-- The length of a message is one the decoder can be given: `0 <= L <= MAX_LEN` (R14, R85). -/
def Config.carries (c : Config) (m : Message) : Bool :=
  match c.maxLen with
  | none => true
  | some n => decide (m.length ≤ n)

/-- The operand is one the unit's input port can carry. Every record is (R12, R72: "there is no invalid record", R73); a
message is if it is not longer than `MAX_LEN` (R14). -/
def Instr.wf (c : Config) : Instr → Bool
  | .enc _ => true
  | .dec m => c.carries m

end Sys2Proof
end

