-- ==== Sys2Proof/Decode.lean ====
section
/-! DEFINITION. Reading and writing the bit patterns of spec/opcode_table.json and 30_encoding.md rules R51, R61. Written
from those tables alone, by bit fields, and not from the operations: that the two agree is a statement. -/

namespace Sys2Proof

/-- Why a byte sequence is no image of an operation. -/
inductive DecodeError where
  /-- Shorter than 50 bytes (R57). -/
  | tooShort
  /-- Byte 0 is not `START` (R57). -/
  | wrongStart
  /-- Byte 49 is not `END` (R57). -/
  | wrongEnd
  /-- A payload byte of a frame has a bit above bit 3 set (R52), so no record has this frame. -/
  | notAFrameByte
  /-- Longer than a frame (R59), so no record has this frame. -/
  | notAFrameLength
  /-- Longer than `MAX_LEN`, so the decoder's port cannot carry it (R14, R15). -/
  | tooLong
  deriving DecidableEq, Repr

/-- One byte of a row's pattern: the fixed bits and their value. -/
structure BytePattern where
  mask : Byte
  value : Byte
  deriving DecidableEq, Repr

/-- The row ENC: the markers whole, and `0000` over each of the 48 nibbles (R61). -/
def encRow (c : Config) : List BytePattern :=
  ⟨0xFF, c.start⟩ :: (List.replicate payloadLen ⟨0xF0, 0x00⟩ ++ [⟨0xFF, c.stop⟩])

/-- The row DEC: the markers whole, and nothing fixed between them (R61, `xxxx` over each nibble). -/
def decRow (c : Config) : List BytePattern :=
  ⟨0xFF, c.start⟩ :: (List.replicate payloadLen ⟨0x00, 0x00⟩ ++ [⟨0xFF, c.stop⟩])

/-- The bytes begin with the row's pattern. -/
def fitsRow : List BytePattern → List Byte → Bool
  | [], _ => true
  | _ :: _, [] => false
  | p :: ps, b :: bs => (b &&& p.mask) == p.value && fitsRow ps bs

/-- The low nibble of the byte at index `j`: the letters of R61's pattern. -/
def letterAt (bs : List Byte) (j : Nat) : BitVec 4 := (bs.getD j 0).extractLsb' 0 4

/-- The 32 letters of word `k` read left to right are its bits 31 down to 0 (R61). -/
def fieldWord (bs : List Byte) (k : Nat) : Word :=
  (letterAt bs (8 * k + 1) ++ letterAt bs (8 * k + 2) ++ letterAt bs (8 * k + 3) ++ letterAt bs (8 * k + 4) ++
    letterAt bs (8 * k + 5) ++ letterAt bs (8 * k + 6) ++ letterAt bs (8 * k + 7) ++ letterAt bs (8 * k + 8) : BitVec 32)

/-- The fields `a` to `f` of a frame (R61). -/
def fieldRecord (bs : List Byte) : Record :=
  ⟨fieldWord bs 0, fieldWord bs 1, fieldWord bs 2, fieldWord bs 3, fieldWord bs 4, fieldWord bs 5⟩

/-- The tests common to both rows, in the order of R86, with the name of the first that fails. -/
def rowError (c : Config) (bs : List Byte) : Option DecodeError :=
  if bs.length < 50 then some .tooShort
  else if bs.getD 0 0 ≠ c.start then some .wrongStart
  else if bs.getD 49 0 ≠ c.stop then some .wrongEnd
  else none

/-- The operation the unit `u` is asked for by the image `bs` (R60: the unit asked selects, not a code). The encoder's image
is the frame of its record, the row ENC; the decoder's image is its message, any bytes its port can carry (R14). -/
def decodeFor (c : Config) (u : CodecUnit) (bs : List Byte) : Except DecodeError Instr :=
  match u with
  | .encoder =>
    match rowError c bs with
    | some e => .error e
    | none =>
      if bs.length ≠ 50 then .error .notAFrameLength
      else if fitsRow (encRow c) bs then .ok (.enc (fieldRecord bs))
      else .error .notAFrameByte
  | .decoder => if c.carries bs then .ok (.dec bs) else .error .tooLong

/-- The operation of the table row a byte sequence fits, total on any bytes. The row ENC is contained in the row DEC, so it is
tried first; a well-formed message that is no frame fits the row DEC alone; a malformed message fits neither row. -/
def decode (c : Config) (bs : List Byte) : Except DecodeError Instr :=
  match rowError c bs with
  | some e => .error e
  | none =>
    if !c.carries bs then .error .tooLong
    else if decide (bs.length = 50) && fitsRow (encRow c) bs then .ok (.enc (fieldRecord bs))
    else if fitsRow (decRow c) bs then .ok (.dec bs)
    else .error .notAFrameByte

/-- The eight bytes of a word in the pattern of R61: `0000` over the nibble at bit `lo`, most significant first. -/
def fieldBytes (w : Word) : List Byte :=
  [28, 24, 20, 16, 12, 8, 4, 0].map fun lo => (0#4 ++ w.extractLsb' lo 4 : BitVec 8)

/-- The image of an operation: the frame of the record (R51, R61), or the message itself. -/
def encode (c : Config) : Instr → List Byte
  | .enc r =>
    [c.start] ++ fieldBytes r.w0 ++ fieldBytes r.w1 ++ fieldBytes r.w2 ++ fieldBytes r.w3 ++ fieldBytes r.w4 ++
      fieldBytes r.w5 ++ [c.stop]
  | .dec m => m

/-- The `n` bytes of a number, the most significant first. -/
def bytesOf : (n : Nat) → (w : Nat) → List Byte
  | 0, _ => []
  | n + 1, w => bytesOf n (w / 256) ++ [BitVec.ofNat 8 w]

/-- The bytes of a table row's word. The table's `match` and `mask` are ONE 400-bit number each, "most significant byte =
frame index 0", so bit 0 is the least significant bit of the LAST byte (log 2). The word has at least 50 bytes. -/
def tableBytes (nbits w : Nat) : List Byte := bytesOf (max 50 ((nbits + 7) / 8)) w

/-- The operation this decoder reads from the word of a row of spec/opcode_table.json, which is written with the default
markers (log 1, log 2). -/
def decodeTableWord (nbits w : Nat) : Option Instr :=
  match decode Machine.defaultConfig (tableBytes nbits w) with
  | .ok i => some i
  | .error _ => none

end Sys2Proof
end

