-- ==== Sys2Proof/Machine/Operands.lean ====
section
/-! DEFINITION. Operand assembly: words to bytes (R53), bytes to words (R54, R88), the payload rules (R58, R90), and the
index map of a frame (R32). -/

namespace Sys2Proof.Machine

/-- Word `k` of a record, `0 <= k <= 5` (R8 `W[k]`, R31). No rule reads another index. -/
def word (r : Record) : Nat → Word
  | 0 => r.w0
  | 1 => r.w1
  | 2 => r.w2
  | 3 => r.w3
  | 4 => r.w4
  | 5 => r.w5
  | _ => 0

/-- `V[k] <- w` (R8, R31). No rule writes another index. -/
def setWord (r : Record) (k : Nat) (w : Word) : Record :=
  match k with
  | 0 => { r with w0 := w }
  | 1 => { r with w1 := w }
  | 2 => { r with w2 := w }
  | 3 => { r with w3 := w }
  | 4 => { r with w4 := w }
  | 5 => { r with w5 := w }
  | _ => r

/-- The words in the order of the frame: word 0 first, word 5 last (R33). -/
def wordList (r : Record) : List Word := [r.w0, r.w1, r.w2, r.w3, r.w4, r.w5]

/-- `nib(w, i) = w[4*i+3 : 4*i]` (R8): nibble 7 is the most significant. -/
def nib (w : Word) (i : Nat) : Nibble := w.extractLsb' (4 * i) 4

/-- `zext_8(nib(w, i))` (R53): the nibble in bits 3 to 0, bits 7 to 4 zero (R34). -/
def nibByte (w : Word) (i : Nat) : Byte := (nib w i).setWidth 8

/-- The eight bytes of a word in index order, most significant nibble first (R33, R53). -/
def wordBytes (w : Word) : List Byte :=
  [nibByte w 7, nibByte w 6, nibByte w 5, nibByte w 4, nibByte w 3, nibByte w 2, nibByte w 1, nibByte w 0]

/-- The frame of a record (R32, R51, R71): `START`, the 48 payload bytes, `END`. -/
def encFrame (c : Config) (r : Record) : Message :=
  c.start :: ((wordList r).flatMap wordBytes ++ [c.stop])

/-- The frame byte at index `pos`, by R78's function `enc_byte`. -/
def encByte (c : Config) (r : Record) (pos : Nat) : Byte :=
  if pos = startIdx then c.start
  else if pos = endIdx then c.stop
  else nibByte (word r ((pos - 1) / nibsPerWord)) (7 - (pos - 1) % nibsPerWord)

/-- A payload byte that is no nibble value (R55, R58). -/
def aboveNibble (b : Byte) : Bool := decide (0x0F#8 < b)

/-- `pn` under `mask` (R58, R90): bits 3 to 0 of the byte. On a byte at most `0x0F` it is the byte. -/
def pn (b : Byte) : Nibble := b.extractLsb' 0 4

/-- One accumulate step of R54 and R88 on a payload byte, by policy (R58's table). The reduction `mod 2^32` is the width of the
word. Under `unlisted` it counts only where all eight bytes of the place are at most `0x0F` (`finishWord`). -/
def accumulate (p : HighNibblePolicy) (acc : Word) (b : Byte) : Word :=
  match p with
  | .mask => (acc <<< 4) ||| (pn b).setWidth 32
  | .orWrap => (acc <<< 4) ||| b.setWidth 32
  | .addWrap => (acc <<< 4) + b.setWidth 32
  | .reject => (acc <<< 4) ||| (pn b).setWidth 32
  | .unlisted => (acc <<< 4) ||| (pn b).setWidth 32

/-- The accumulator after the payload bytes `bs` (the inner loop of R88). -/
def accumulateAll (p : HighNibblePolicy) : (acc : Word) → List Byte → Word
  | acc, [] => acc
  | acc, b :: bs => accumulateAll p (accumulate p acc b) bs

/-- The word written at the end of a word place with the bytes `place` and the accumulator `acc`: the accumulator (R88), but
under `unlisted` the free word of a place with a byte above `0x0F` (U1). -/
def finishWord (p : HighNibblePolicy) (place : List Byte) (acc : Word) : Word :=
  match p with
  | .mask => acc
  | .orWrap => acc
  | .addWrap => acc
  | .reject => acc
  | .unlisted => if place.any aboveNibble then Config.freeWord place else acc

/-- The word the eight bytes of a word place are read as, the same for every word of the record (R22, R88). -/
def assemble (p : HighNibblePolicy) (place : List Byte) : Word := finishWord p place (accumulateAll p 0 place)

/-- The eight payload bytes of word `k`, at indices `1 + 8*k` to `8 + 8*k` (R32). -/
def placeBytes (m : Message) (k : Nat) : List Byte := (m.drop (1 + nibsPerWord * k)).take nibsPerWord

/-- Output word `k` of an accepted message (R88). -/
def placeWord (p : HighNibblePolicy) (m : Message) (k : Nat) : Word :=
  assemble p (placeBytes m k)

/-- The 48 payload bytes, at indices 1 to 48 (R32). -/
def payload (m : Message) : List Byte := (m.drop 1).take payloadLen

end Sys2Proof.Machine
end

