-- ==== Sys2Proof/Machine/Flags.lean ====
section
/-! DEFINITION. The block has no flags (R18). What stands here are the predicates its rules test: `frame_ok` (R56), the
payload test of the policies that reject (R58, R154), and their conjunction. None of them is a port or a register. -/

namespace Sys2Proof.Machine

/-- `frame_ok` (R56, R86): the length test first, because the other two read bytes that exist only if it holds. -/
def frameOk (c : Config) (m : Message) : Bool :=
  decide (frameLen ≤ m.length) && (m[startIdx]? == some c.start && m[endIdx]? == some c.stop)

/-- Whether a payload byte makes the message malformed by itself: above `0x0F` under `reject`, never under the others (R58's
table). -/
def rejectsByte (p : HighNibblePolicy) (b : Byte) : Bool :=
  match p with
  | .mask => false
  | .orWrap => false
  | .addWrap => false
  | .reject => aboveNibble b
  | .unlisted => false

/-- Whether the bytes of a word place make the message malformed together: freely under `unlisted` where one is above `0x0F`
(U1), never under the others. -/
def rejectsPlace (p : HighNibblePolicy) (place : List Byte) : Bool :=
  match p with
  | .mask => false
  | .orWrap => false
  | .addWrap => false
  | .reject => false
  | .unlisted => place.any aboveNibble && Config.freeReject place

/-- Whether the bytes of a word place make the message malformed, the same test for every word of the record (R22). -/
def rejectsWord (p : HighNibblePolicy) (place : List Byte) : Bool := place.any (rejectsByte p) || rejectsPlace p place

/-- The policy's further reject condition (R58): one of the six word places has it. -/
def rejectsPayload (p : HighNibblePolicy) (m : Message) : Bool :=
  (List.range 6).any fun k => rejectsWord p (placeBytes m k)

/-- `DEC` accepts the message: the three tests of R86, and the policy's further condition where it has one (R58). -/
def accepts (c : Config) (m : Message) : Bool := frameOk c m && !rejectsPayload c.policy m

/-- A canonical message (R110): one `ENC` can produce. -/
def canonical (c : Config) (m : Message) : Bool :=
  decide (m.length = frameLen) && frameOk c m && (payload m).all (fun b => !aboveNibble b)

/-- The record `DEC` answers (R89): the words of the accepted message, or `ZERO6` for a malformed one (R87). This is all
that happens on a malformed message: no trap is taken (R150, R155). -/
def decRecord (c : Config) (m : Message) : Record :=
  if accepts c m then
    ⟨placeWord c.policy m 0, placeWord c.policy m 1, placeWord c.policy m 2,
     placeWord c.policy m 3, placeWord c.policy m 4, placeWord c.policy m 5⟩
  else zero6

end Sys2Proof.Machine
end

