-- ==== Sys2Proof/Machine/State.lean ====
section
/-! DEFINITION. The state of the block: port values, the constants of the instance, the working registers of the optional
byte-at-a-time forms, and what the environment asks next. 10_state.md gives the block no state that survives an operation
(R11); INVENTORY.md lists each field with its rule. -/

namespace Sys2Proof.Machine

/-- Why the machine stops with a fault. There is no reason: "a model's step for ENC and for DEC ... has no fault outcome"
(R150), and no act of the environment makes the block fault. -/
inductive Fault where
  deriving DecidableEq, Repr

/-- Why a step is given no meaning. None is raised by `ENC` or `DEC` (R150). -/
inductive Refusal where
  /-- Raised by an arm of exec that has no meaning yet. No arm is. Safe. -/
  | notModelled (mnemonic : String)
  /-- Raised by `takeMessage` and `takeRecord` on an output port that has no value: before its unit's first operation, or
  after the environment took the result (R24, R26; U10: "refuse (a read there has no value)"). Safe. -/
  | noOutputValue
  /-- Raised by `emitByte` when `REC_IN` has changed since the message was begun (R78; U12: "refuse: outside the spec").
  Safe. -/
  | recordChanged
  deriving DecidableEq, Repr

/-- What the environment does to the block in one step. -/
inductive Event where
  /-- Asks a unit for one whole operation (R17, R25). -/
  | request (i : Instr)
  /-- Presents a record on `REC_IN`, for a byte-at-a-time encoder (R12, R78). -/
  | presentRecord (r : Record)
  /-- Lets the byte-at-a-time encoder emit its next byte (R78). -/
  | emitByte
  /-- Gives the byte-at-a-time decoder its next byte (R97, "on byte b"). -/
  | receiveByte (b : Byte)
  /-- Gives the byte-at-a-time decoder the channel's end-of-message indication (R97). -/
  | endOfMessage
  /-- Takes the message on `MSG_OUT` (R13, R26). -/
  | takeMessage
  /-- Takes the record on `REC_OUT` (R16, R26). -/
  | takeRecord
  /-- Asserts reset (R165). -/
  | reset
  deriving DecidableEq, Repr

/-- The byte-at-a-time encoder (R78). -/
structure SerialEncoder where
  /-- `pos`, 0 to 49. -/
  pos : Nat
  /-- Whether `REC_IN` has changed since the byte at `pos = 0` was emitted: R78's "while `W` is held unchanged" is broken
  (the model's own note, U12, log 11). -/
  changed : Bool
  /-- The bytes emitted so far of the message in progress: the model's own record of the output stream (log 10). -/
  emitted : List Byte
  deriving DecidableEq, Repr

/-- The byte-at-a-time decoder's working registers (R97). -/
structure SerialDecoder where
  /-- `pos`, bytes seen so far, saturating at 50. -/
  pos : Nat
  /-- `ok`. -/
  ok : Bool
  /-- `acc`, 32 bits. -/
  acc : Word
  /-- `out[0..5]`. -/
  out : Record
  /-- The bytes of the word in progress: the model's own note, for a policy that reads a word place as a whole (U1, log 10). -/
  place : List Byte
  deriving DecidableEq, Repr

/-- The state of the block. -/
structure State where
  /-- `START`, `END`, `HIGH_NIBBLE_POLICY`, `MAX_LEN`: constants, never written (R19). -/
  cfg : Config
  /-- `REC_IN` (R12), six words of 32 bits: the record presented last (log 8). -/
  recIn : Record
  /-- `MSG_OUT` (R13): the message, from the step that makes it until it is taken (R26). -/
  msgOut : Option Message
  /-- `MSG_IN` (R14): the whole message presented last (log 8). -/
  msgIn : Message
  /-- `REC_OUT` (R16): the record, from the step that makes it until it is taken (R26). -/
  recOut : Option Record
  /-- The byte-at-a-time encoder (R78). -/
  encSer : SerialEncoder
  /-- The byte-at-a-time decoder (R97). -/
  decSer : SerialDecoder
  /-- What the environment does next, oldest first (the model's own, R17, log 3). -/
  inputs : List Event
  deriving DecidableEq, Repr

/-- The encoder's working registers at reset and at a message boundary (R24, R78). -/
def SerialEncoder.cleared : SerialEncoder := { pos := 0, changed := false, emitted := [] }

/-- The decoder's working registers at reset and at every message boundary (R24, R97). -/
def SerialDecoder.cleared : SerialDecoder := { pos := 0, ok := true, acc := 0, out := zero6, place := [] }

/-- The state after reset of an instance with constants `c` (R24, R165, R166): output ports have no value, input ports stand
as with nothing presented (log 8), working registers are cleared, constants are as they are. -/
def State.resetWith (c : Config) : State :=
  { cfg := c
    recIn := unpresentedRecord
    msgOut := none
    msgIn := unpresentedMessage
    recOut := none
    encSer := .cleared
    decSer := .cleared
    inputs := [] }

/-- The machine right after reset, with the spec's default constants (R24; log 4) and nothing asked of it (log 3). -/
def State.reset : State := State.resetWith defaultConfig

end Sys2Proof.Machine
end

