-- ==== Sys2Proof/Machine/Ops.lean ====
section
/-! DEFINITION. The named operations on the ports and on the working registers. The block has no exception to take and none
to return from (R150, R155, R156): what stands in their place is the reject, an ordinary output of `DEC`
(`Machine.decRecord`). -/

namespace Sys2Proof.Machine

/-- The environment presents a record on `REC_IN` (R12). -/
def State.presentRecord (s : State) (r : Record) : State := { s with recIn := r }

/-- The environment presents a whole message on `MSG_IN` (R14). -/
def State.presentMessage (s : State) (m : Message) : State := { s with msgIn := m }

/-- The environment discards the record it presented (R137, R146): `REC_IN` stands as with nothing presented (log 8). -/
def State.withdrawRecord (s : State) : State := { s with recIn := unpresentedRecord }

/-- The environment discards the message it presented (R137, R146): `MSG_IN` stands as with nothing presented (log 8). -/
def State.withdrawMessage (s : State) : State := { s with msgIn := unpresentedMessage }

/-- The encoder unit writes `MSG_OUT` (R13). A value not yet taken is replaced (log 9). -/
def State.driveMessage (s : State) (m : Message) : State := { s with msgOut := some m }

/-- The decoder unit writes `REC_OUT` (R16). A value not yet taken is replaced (log 9). -/
def State.driveRecord (s : State) (r : Record) : State := { s with recOut := some r }

/-- `MSG_OUT` after the environment took its value (R26). -/
def State.clearMessage (s : State) : State := { s with msgOut := none }

/-- `REC_OUT` after the environment took its value (R26). -/
def State.clearRecord (s : State) : State := { s with recOut := none }

/-- The byte-at-a-time encoder's registers take new values. -/
def State.setEncSer (s : State) (e : SerialEncoder) : State := { s with encSer := e }

/-- Notes, in the middle of an emission, that `REC_IN` is no longer the record `before` (R78, U12, log 11). Putting the
record back does not mend the message. -/
def State.watchRecord (s : State) (before : Record) : State :=
  if s.encSer.pos = 0 then s
  else if s.recIn = before then s
  else s.setEncSer { s.encSer with changed := true }

/-- The byte-at-a-time decoder's registers take new values. -/
def State.setDecSer (s : State) (d : SerialDecoder) : State := { s with decSer := d }

/-- The environment's list of inputs becomes `es`. -/
def State.setInputs (s : State) (es : List Event) : State := { s with inputs := es }

end Sys2Proof.Machine
end

