-- ==== Sys2Proof/Machine/Decoder.lean ====
section
/-! DEFINITION. The decoder unit: the operation `DEC` (41_decode.md). -/

namespace Sys2Proof.Machine

/-- `DEC` (R85, R89): the message is presented on `MSG_IN` and its record, or `ZERO6` if it is malformed, is written to
`REC_OUT`. It raises nothing (R92) and interprets nothing (R93). -/
def execDec (m : Message) (s : State) : Host.Outcome State Fault Refusal :=
  .next ((s.presentMessage m).driveRecord (decRecord s.cfg m))

end Sys2Proof.Machine
end

