-- ==== Sys2Proof/Machine/Encoder.lean ====
section
/-! DEFINITION. The encoder unit: the operation `ENC` (40_encode.md). -/

namespace Sys2Proof.Machine

/-- `ENC` (R70, R71): the record is presented on `REC_IN` and its frame is written to `MSG_OUT`. It raises nothing and
interprets nothing (R73, R77). -/
def execEnc (r : Record) (s : State) : Host.Outcome State Fault Refusal :=
  .next ((s.presentRecord r).driveMessage (encFrame s.cfg r))

end Sys2Proof.Machine
end

