-- ==== Sys2Proof/Machine/Dispatch.lean ====
section
/-! DEFINITION. One arm per operation of spec/opcode_table.json. -/

namespace Sys2Proof.Machine

def exec (i : Instr) (s : State) : Host.Outcome State Fault Refusal :=
  match i with
  | .enc r => Sys2Proof.Machine.execEnc r s
  | .dec m => Sys2Proof.Machine.execDec m s

end Sys2Proof.Machine
end

