-- ==== Sys2Proof/Machine/Serial.lean ====
section
/-! DEFINITION. The byte-at-a-time formulations, the spec's optional refinements (R78, R97, D18). -/

namespace Sys2Proof.Machine

/-- The encoder after it emits the byte `b`: one position on, and after `END` the registers of a message boundary (R78, R21). -/
def SerialEncoder.advance (e : SerialEncoder) (b : Byte) : SerialEncoder :=
  if e.pos = endIdx then .cleared else { e with pos := e.pos + 1, emitted := e.emitted ++ [b] }

/-- Emits the byte at `pos` of the frame of the record on `REC_IN` (R78). With the last byte the whole message stands on
`MSG_OUT` (the model's, log 10). -/
def emitOf (s : State) : State :=
  let b := encByte s.cfg s.recIn s.encSer.pos
  let s' := s.setEncSer (s.encSer.advance b)
  if s.encSer.pos = endIdx then s'.driveMessage (s.encSer.emitted ++ [b]) else s'

/-- One byte step of the encoder (R78). If `REC_IN` has changed since the message was begun, the message is outside the spec
(U12: "refuse"). -/
def emitByte (s : State) : Host.Outcome State Fault Refusal :=
  if s.encSer.changed then .refused .recordChanged else .next (emitOf s)

/-- "On byte b" of R97, with the reject line for `reject`, and at the end of a word place what `unlisted` makes of the place as a
whole (U1, log 10). -/
def SerialDecoder.onByte (c : Config) (d : SerialDecoder) (b : Byte) : SerialDecoder :=
  let d' :=
    if d.pos = startIdx then { d with ok := b == c.start }
    else if d.pos ≤ payloadLen then
      let acc := accumulate c.policy d.acc b
      let place := d.place ++ [b]
      let ok := d.ok && !rejectsByte c.policy b
      if d.pos % nibsPerWord = 0 then
        { d with
          ok := ok && !rejectsPlace c.policy place
          out := setWord d.out (d.pos / nibsPerWord - 1) (finishWord c.policy place acc)
          acc := 0
          place := [] }
      else { d with ok := ok, acc := acc, place := place }
    else if d.pos = endIdx then { d with ok := d.ok && b == c.stop }
    else d
  if d.pos < frameLen then { d' with pos := d.pos + 1 } else d'

/-- The record the decoder outputs "on end of message" of R97. -/
def SerialDecoder.result (d : SerialDecoder) : Record :=
  if d.pos = frameLen ∧ d.ok = true then d.out else zero6

/-- The decoder takes one byte (R97). DESIGN CHOICE (log 10): `MSG_IN` stays as it was; a message given byte by byte does not
stand on the port, because R97 gives it no place there. -/
def receiveByte (b : Byte) (s : State) : Host.Outcome State Fault Refusal :=
  .next (s.setDecSer (s.decSer.onByte s.cfg b))

/-- The message ends: the record is output on `REC_OUT` and the working registers are cleared (R97); `MSG_IN` stays (log 10). -/
def endOfMessage (s : State) : Host.Outcome State Fault Refusal :=
  .next ((s.driveRecord s.decSer.result).setDecSer .cleared)

end Sys2Proof.Machine
end

