-- ==== Sys2Proof/Machine/Events.lean ====
section
/-! DEFINITION. What each act of the environment does to the block. -/

namespace Sys2Proof.Machine

/-- The environment takes the message on `MSG_OUT` (R26; U10 where there is none). -/
def takeMessage (s : State) : Host.Outcome State Fault Refusal :=
  match s.msgOut with
  | none => .refused .noOutputValue
  | some _ => .next s.clearMessage

/-- The environment takes the record on `REC_OUT` (R26; U10 where there is none). -/
def takeRecord (s : State) : Host.Outcome State Fault Refusal :=
  match s.recOut with
  | none => .refused .noOutputValue
  | some _ => .next s.clearRecord

/-- Reset (R165): an operation in progress is abandoned without output, working registers and ports go to the values of R24,
the constants stay. What the environment will do afterwards is the environment's and stays (log 12). -/
def assertReset (s : State) : Host.Outcome State Fault Refusal :=
  .next ((State.resetWith s.cfg).setInputs s.inputs)

/-- `f` of the next state, where there is one. -/
def mapNext (f : State → State) (o : Host.Outcome State Fault Refusal) : Host.Outcome State Fault Refusal :=
  match o with
  | .next s => .next (f s)
  | .fault e => .fault e
  | .refused e => .refused e

/-- One act of the environment. What presents a record, `ENC` among them, is watched for a change of `REC_IN` in the middle of
an emission (U12). -/
def runEvent (e : Event) (s : State) : Host.Outcome State Fault Refusal :=
  match e with
  | .request i => mapNext (fun t => t.watchRecord s.recIn) (exec i s)
  | .presentRecord r => .next ((s.presentRecord r).watchRecord s.recIn)
  | .emitByte => emitByte s
  | .receiveByte b => receiveByte b s
  | .endOfMessage => endOfMessage s
  | .takeMessage => takeMessage s
  | .takeRecord => takeRecord s
  | .reset => assertReset s

/-- The operation a table row's word asks for. A word that fits no row is still a message, and `DEC` is defined on every
message (R92), so it is given to the decoder. -/
def tableRequest (nbits w : Nat) : Instr :=
  match decodeTableWord nbits w with
  | some i => i
  | none => .dec (tableBytes nbits w)

end Sys2Proof.Machine
end

