-- ==== Sys2Proof/Machine/Step.lean ====
section
/-! DEFINITION. One step: the oldest thing the environment asks is done. There is no program counter and no fetch (R17, R45). -/

namespace Sys2Proof.Machine

/-- One step of the block. With nothing asked nothing changes (R17, R163). -/
def step (s : State) : Host.Outcome State Fault Refusal :=
  match s.inputs with
  | [] => .next s
  | e :: rest => runEvent e (s.setInputs rest)

/-- `s` with the operation of a table row's word asked for next (log 3). -/
def State.withFetchWord (s : State) (nbits w : Nat) : State :=
  s.setInputs (.request (tableRequest nbits w) :: s.inputs)

end Sys2Proof.Machine
end

