-- ==== Sys2Proof/Machine/Text.lean ====
section
/-! DEFINITION. The environment's text forms of a record (30_encoding.md R63, R64; 43_environment_protocol.md R138, R140): lines,
whitespace-separated hexadecimal tokens, and what they read as. Outside the block (R4). What the source leaves open of them
(N12) is a parameter, a free value, or a choice named in log 16. -/

namespace Sys2Proof.Machine

/-- The spellings of a hexadecimal token that the source neither allows nor forbids (R63, N12): open parameters. -/
structure TextSyntax where
  /-- Letters `a` to `f` are digits. -/
  lowerCase : Bool
  /-- Letters `A` to `F` are digits. -/
  upperCase : Bool
  /-- A token may begin with `0x` or `0X`. -/
  prefix0x : Bool
  deriving DecidableEq, Repr

/-- The parts between the characters that satisfy `sep`: one more than there are such characters. -/
def splitAtChars (sep : Char → Bool) : List Char → List (List Char)
  | [] => [[]]
  | c :: cs =>
    match splitAtChars sep cs with
    | [] => [[]]
    | part :: parts => if sep c then [] :: part :: parts else (c :: part) :: parts

/-- Whitespace within a line (R138): space, tab, vertical tab, form feed, carriage return. -/
def isSpace (c : Char) : Bool := c.toNat == 32 || c.toNat == 9 || c.toNat == 11 || c.toNat == 12 || c.toNat == 13

/-- A line feed ends a line (R138 "one line per record"). -/
def isLineEnd (c : Char) : Bool := c.toNat == 10

/-- The lines of a text. -/
def textLines (text : List Char) : List (List Char) := splitAtChars isLineEnd text

/-- The "whitespace-separated" tokens of a line (R138). -/
def lineTokens (line : List Char) : List (List Char) := (splitAtChars isSpace line).filter (fun t => !t.isEmpty)

/-- The value of a hexadecimal digit, if the character is one. -/
def hexDigit (x : TextSyntax) (c : Char) : Option Nat :=
  if 48 ≤ c.toNat ∧ c.toNat ≤ 57 then some (c.toNat - 48)
  else if x.lowerCase = true ∧ 97 ≤ c.toNat ∧ c.toNat ≤ 102 then some (c.toNat - 87)
  else if x.upperCase = true ∧ 65 ≤ c.toNat ∧ c.toNat ≤ 70 then some (c.toNat - 55)
  else none

/-- The number a run of digits stands for, after the digits of `acc`; none if a character is no digit. -/
def hexValue (x : TextSyntax) : (acc : Nat) → List Char → Option Nat
  | acc, [] => some acc
  | acc, c :: cs =>
    match hexDigit x c with
    | some d => hexValue x (16 * acc + d) cs
    | none => none

/-- The token without its sign. -/
def dropSign (t : List Char) : List Char :=
  if t.head? = some '+' ∨ t.head? = some '-' then t.drop 1 else t

/-- The token without its prefix, where prefixes are allowed. -/
def dropPrefix (x : TextSyntax) (t : List Char) : List Char :=
  if x.prefix0x = true ∧ (t.take 2 = ['0', 'x'] ∨ t.take 2 = ['0', 'X']) then t.drop 2 else t

/-- A hexadecimal token as a word, `none` for a "bad hex token" (R140). DESIGN CHOICE (log 16): a token may have any number of
digits, one, or more than eight with leading zeros, and reads as its number; the source leaves the width open (N12). DESIGN
CHOICE (log 16): a token with no digits, a bare sign or, where the prefix is allowed, a bare prefix, is bad. A token with a
sign before digits, or above `0xFFFFFFFF`, reads as the source does not say (N12): a free value. -/
def readToken (x : TextSyntax) (t : List Char) : Option Word :=
  match dropPrefix x (dropSign t) with
  | [] => none
  | c :: cs =>
    match hexValue x 0 (c :: cs) with
    | none => none
    | some n => if dropSign t = t ∧ n < 2 ^ 32 then some (BitVec.ofNat 32 n) else Config.freeToken t

/-- The tokens of a line or the positional arguments, read; `none` for a bad one. -/
abbrev TokenLine := List (Option Word)

/-- A line of the batch text, read. -/
def readLine (x : TextSyntax) (line : List Char) : TokenLine := (lineTokens line).map (readToken x)

/-- Six good tokens: token 1 is word 0 and tokens 2 to 6 are words 1 to 5 (R63, R64). Tokens past the sixth are not looked at
(log 16). -/
def lineRecord : TokenLine → Option Record
  | some a :: some b :: some c :: some d :: some e :: some f :: _ => some ⟨a, b, c, d, e, f⟩
  | _ => none

/-- The records of the lines of a batch text: a short line or a bad token is its end (R138, R140). DESIGN CHOICE (log 16): a
line of fewer than six tokens is short, and a blank line, which has none, is a short line as any other. -/
def batchRecords : List TokenLine → List Record
  | [] => []
  | l :: ls =>
    match lineRecord l with
    | some r => r :: batchRecords ls
    | none => []

/-- The records of a batch text (R138). -/
def textRecords (x : TextSyntax) (text : List Char) : List Record := batchRecords ((textLines text).map (readLine x))

/-- A hexadecimal digit as a character, letters in upper or in lower case. -/
def digitChar (upper : Bool) (n : Nat) : Char :=
  if n < 10 then Char.ofNat (48 + n) else if upper then Char.ofNat (55 + n) else Char.ofNat (87 + n)

/-- A word as a token of eight digits. -/
def wordToken (upper : Bool) (w : Word) : List Char :=
  [28, 24, 20, 16, 12, 8, 4, 0].map fun lo => digitChar upper (w.extractLsb' lo 4).toNat

/-- A record as a line of the batch text (R138), with its line feed. -/
def recordLine (upper : Bool) (r : Record) : List Char :=
  wordToken upper r.w0 ++ ' ' :: (wordToken upper r.w1 ++ ' ' :: (wordToken upper r.w2 ++ ' ' :: (wordToken upper r.w3 ++
    ' ' :: (wordToken upper r.w4 ++ ' ' :: (wordToken upper r.w5 ++ ['\n'])))))

end Sys2Proof.Machine
end

