-- ==== Sys2Proof/Machine/Protocol.lean ====
section
/-! DEFINITION. The environment's requests: how the host protocol makes records of its inputs (43_environment_protocol.md
rules R124 to R132, R139 to R141, R145). Outside the block (R4). -/

namespace Sys2Proof.Machine

/-- The open parameters of the environment: the command constants (R124, D19), the spelling of tokens (N12), and the reading
of `none` on a zero key (D15). -/
structure ProtocolConsts where
  erase : Word
  writeCmd : Word
  finalizeCmd : Word
  baseAddr : Word
  blockLimit : Nat
  /-- The spellings of a hexadecimal token. -/
  text : TextSyntax
  /-- Whether, while the key awaited is ZERO, `none` from `receive` is taken as `DEC` of the empty message (N18). For other
  keys the two readings have one outcome and `none` is polled again (R122); "a session model with a zero key should admit
  both" (D15), so this is open (log 17). -/
  decodesNone : Bool
  deriving DecidableEq, Repr

/-- The states of the protocol (R126). DEDUCED (log 14): `verifyingTail` is entered with the finalize record, and the sample
flow, which R126 does not name, uses `writing`. -/
inductive Phase where
  | idle
  | erasing
  | writing
  | verifyingTail
  | sendingProperties
  | sendingSingleProperty
  | done
  deriving DecidableEq, Repr

/-- A record to send, the state of the protocol it is sent in, and whether its acknowledgement is awaited. -/
structure Request where
  record : Record
  phase : Phase
  awaited : Bool
  deriving DecidableEq, Repr

/-- What a session sends (R126: the flow is chosen once). -/
inductive Flow where
  /-- Erase, write, finalize (R127 to R129). -/
  | firmware (image : List Byte)
  /-- Sample blocks (R130). -/
  | samples (ss : List Int)
  /-- A batch of records (R131). -/
  | batch (rs : List Record)
  /-- One record (R132). -/
  | single (r : Record)
  deriving DecidableEq, Repr

/-- The erase record (R127). -/
def eraseRecord (k : ProtocolConsts) : Record := ⟨k.erase, 0, 0, 0, 0, 0⟩

/-- The finalize record (R129). -/
def finalizeRecord (k : ProtocolConsts) : Record := ⟨k.finalizeCmd, 0, 0, 0, 0, 0⟩

/-- Byte `i` of the image, zero past its end ("pad the final short chunk with zero bytes to 16", R128). -/
def imageByte (image : List Byte) (i : Nat) : Byte := image.getD i 0

/-- `f[q]` of chunk `n`: four bytes packed big-endian (R128, R46). -/
def chunkWord (image : List Byte) (n q : Nat) : Word :=
  (imageByte image (16 * n + 4 * q) ++ imageByte image (16 * n + 4 * q + 1) ++ imageByte image (16 * n + 4 * q + 2) ++
    imageByte image (16 * n + 4 * q + 3) : BitVec 32)

/-- The record of chunk `n`: four firmware words and ONE zero word (R128, C2). -/
def chunkRecord (k : ProtocolConsts) (image : List Byte) (n : Nat) : Record :=
  ⟨k.writeCmd, chunkWord image n 0, chunkWord image n 1, chunkWord image n 2, chunkWord image n 3, 0⟩

/-- `ceil(N/16)` chunks (R128). -/
def chunkCount (image : List Byte) : Nat := (image.length + 15) / 16

/-- A signed sample as a word, `s mod 2^32` (R145, D20). -/
def sampleWord (s : Int) : Word := BitVec.ofInt 32 s

/-- Sample `i` as a word, zero past the end ("last group zero-padded", R130). -/
def sampleAt (ss : List Int) (i : Nat) : Word := sampleWord (ss.getD i 0)

/-- The record of block `n`, tagged `BASE_ADDR + n` (R130). The sum is a word's (log 15). -/
def sampleRecord (k : ProtocolConsts) (ss : List Int) (n : Nat) : Record :=
  ⟨k.baseAddr + BitVec.ofNat 32 n, sampleAt ss (5 * n), sampleAt ss (5 * n + 1), sampleAt ss (5 * n + 2),
    sampleAt ss (5 * n + 3), sampleAt ss (5 * n + 4)⟩

/-- Groups of five, and never a block index at or above the limit (R130). -/
def blockCount (k : ProtocolConsts) (ss : List Int) : Nat := min ((ss.length + 4) / 5) k.blockLimit

/-- The requests of a flow, in order. Every one but the finalize record is awaited (R129, C3). An empty image has no chunk
(R128), so its flow goes from `erasing` to `verifyingTail` and is never in `writing` (DEDUCED, log 14). -/
def Flow.requests (k : ProtocolConsts) : Flow → List Request
  | .firmware image =>
    [⟨eraseRecord k, .erasing, true⟩] ++
      (List.range (chunkCount image)).map (fun n => ⟨chunkRecord k image n, .writing, true⟩) ++
      [⟨finalizeRecord k, .verifyingTail, false⟩]
  | .samples ss => (List.range (blockCount k ss)).map (fun n => ⟨sampleRecord k ss n, .writing, true⟩)
  | .batch rs => rs.map (fun r => ⟨r, .sendingProperties, true⟩)
  | .single r => [⟨r, .sendingSingleProperty, true⟩]

/-- What the command line is asked (R139). `wav none` is a waveform of an unsupported bit depth (R141). -/
inductive Launch where
  | listDevices
  | bin (image : List Byte)
  | dat
  | wav (ss : Option (List Int))
  | txt (text : List Char)
  | direct (args : List (List Char))
  deriving DecidableEq, Repr

/-- Why a launch starts no session. -/
inductive LaunchError where
  /-- The `.dat` mode transmits nothing and is a gap of the software (R141; U9: refuse). -/
  | datModeGap
  /-- An unsupported sample width (R141; U8: refuse). -/
  | unsupportedBitDepth
  /-- The direct mode's arguments are short or bad: "reported to the user; no partial record sent" (R140). -/
  | badArguments
  /-- Another session owns the channel (R161, R175; U3: refuse). -/
  | channelOwned
  /-- The list-devices mode sends nothing and is no session (R139). -/
  | noSession
  deriving DecidableEq, Repr

/-- The flow a launch chooses (R126, R139; the pairing of suffixes with flows is G4's inference, log 16). The direct mode
takes exactly six good tokens (R64, R140; log 16). -/
def Launch.flow (x : TextSyntax) : Launch → Except LaunchError Flow
  | .listDevices => .error .noSession
  | .bin image => .ok (.firmware image)
  | .dat => .error .datModeGap
  | .wav none => .error .unsupportedBitDepth
  | .wav (some ss) => .ok (.samples ss)
  | .txt text => .ok (.batch (textRecords x text))
  | .direct args =>
    match lineRecord (args.map (readToken x)) with
    | some r => if args.length = 6 then .ok (.single r) else .error .badArguments
    | none => .error .badArguments

end Sys2Proof.Machine
end

