-- ==== Sys2Proof/Machine/Session.lean ====
section
/-! DEFINITION. A session of the environment with the device (43_environment_protocol.md rules R120 to R123, R126, R133 to
R137, R143, R146): the host protocol using the block through `Machine.exec`. Outside the block (R4). The device and the channel
are the list of answers `receive` will give, and nothing is assumed of it (U7, U15). -/

namespace Sys2Proof.Machine

/-- The channel (R120, R143). -/
structure Channel where
  /-- Whether a session has acquired it (R143: "acquired once at session start and held for the entire sequence of steps"). -/
  owned : Bool
  /-- What `receive` will answer, oldest first: a message, or that none is pending; past the end, that none is pending. -/
  inbound : List (Option Message)
  /-- The messages given to `send`, oldest first. -/
  sent : List Message
  deriving DecidableEq, Repr

/-- A session acquires the channel (R143). -/
def Channel.acquire (ch : Channel) : Channel := { ch with owned := true }

/-- The channel is released (R143, R146). -/
def Channel.release (ch : Channel) : Channel := { ch with owned := false }

/-- `send` of a message (R120). DESIGN CHOICE (log 17): it takes the whole message at once, always; the source says nothing of
the channel's capacity or of what `send` does when the link is busy (R120, N8). -/
def Channel.send (ch : Channel) (m : Message) : Channel := { ch with sent := ch.sent ++ [m] }

/-- `receive`: the answer, and the channel after it (R120). -/
def Channel.receive (ch : Channel) : Option Message × Channel :=
  match ch.inbound with
  | [] => (none, ch)
  | a :: rest => (a, { ch with inbound := rest })

/-- A session. -/
structure Session where
  /-- The block the session uses. -/
  codec : State
  /-- The state of the protocol (R126). -/
  phase : Phase
  /-- The word 0 awaited, while a wait is on (R122). -/
  key : Option Word
  /-- The requests not yet sent: the sequence position (R137). -/
  todo : List Request
  /-- The channel (R143). -/
  channel : Channel
  /-- How `none` is read on a zero key (D15, N18; `ProtocolConsts.decodesNone`). -/
  decodesNone : Bool
  deriving DecidableEq, Repr

/-- A session at its start: the channel is acquired (R143), and the state is `Idle` (R126). -/
def Session.start (codec : State) (k : ProtocolConsts) (f : Flow) (ch : Channel) : Session :=
  { codec := codec, phase := .idle, key := none, todo := f.requests k, channel := ch.acquire, decodesNone := k.decodesNone }

/-- A launch on a channel. "File/parse errors surface immediately" (R143), before the channel is acquired; a second session on
an owned channel is given no meaning (R121, R175, U3). -/
def Session.launch (ch : Channel) (codec : State) (k : ProtocolConsts) (l : Launch) : Except LaunchError Session :=
  match l.flow k.text with
  | .error e => .error e
  | .ok f => if ch.owned then .error .channelOwned else .ok (Session.start codec k f ch)

/-- The request `q` is encoded and its frame given to `send` whole (R120); its word 0 is awaited, but for finalize (R129). The
record and the frame are discarded (R137, R146). DESIGN CHOICE (log 17): a session takes no byte step, and neither this `ENC` nor
the withdrawal of its record is noted as a change of `REC_IN` in the middle of a byte-at-a-time message (R179, log 11). -/
def Session.send (s : Session) (q : Request) (rest : List Request) : Host.Outcome Session Fault Refusal :=
  match exec (.enc q.record) s.codec with
  | .fault e => .fault e
  | .refused e => .refused e
  | .next c =>
    match c.msgOut with
    | none => .refused .noOutputValue
    | some m =>
      .next { s with
        codec := c.clearMessage.withdrawRecord
        phase := q.phase
        key := if q.awaited then some q.record.w0 else none
        todo := rest
        channel := s.channel.send m }

/-- The message `m` is decoded and its word 0 compared, as a whole word, with the key; if they differ the wait goes on (R122,
R134, R135). The message and the record are discarded (R137, R146). -/
def Session.examine (s : Session) (key : Word) (m : Message) (ch : Channel) : Host.Outcome Session Fault Refusal :=
  match exec (.dec m) s.codec with
  | .fault e => .fault e
  | .refused e => .refused e
  | .next c =>
    match c.recOut with
    | none => .refused .noOutputValue
    | some r =>
      .next { s with
        codec := c.clearRecord.withdrawMessage
        key := if r.w0 = key then none else some key
        channel := ch }

/-- One poll of a wait (R122). Nothing pending leads to another poll without a `DEC`, and a device that never answers is waited
for without end (R133, U6); but on a zero key the other reading of `none` is admitted too: `DEC` of the empty message (R96, D15,
R173; log 17). -/
def Session.wait (s : Session) (key : Word) : Host.Outcome Session Fault Refusal :=
  match s.channel.receive with
  | (some m, ch) => s.examine key m ch
  | (none, ch) =>
    if key = 0 ∧ s.decodesNone = true then s.examine key [] ch
    else .next { s with channel := ch }

/-- The end of the sequence of steps: `Done` (R126), and the channel is released (R143, R146). DESIGN CHOICE (log 17): the
release, which R143 leaves to the caller, is in the same step. -/
def Session.finish (s : Session) : Session := { s with phase := .done, channel := s.channel.release }

/-- The end of the process in the middle of a session, R143's "(only) failure path": the channel it leaves, released. -/
def Session.terminate (s : Session) : Channel := s.channel.release

/-- One step of a session. While a wait is on, `receive` is polled; with no wait on, the next request is sent; after the last
the session is done. -/
def Session.step (s : Session) : Host.Outcome Session Fault Refusal :=
  match s.key, s.todo with
  | some key, _ => s.wait key
  | none, [] => .next s.finish
  | none, q :: rest => s.send q rest

/-- `n` steps of a session. -/
def Session.run : Nat → Session → Host.Outcome Session Fault Refusal
  | 0, s => .next s
  | n + 1, s =>
    match s.step with
    | .next s' => s'.run n
    | .fault e => .fault e
    | .refused e => .refused e

end Sys2Proof.Machine
end

