-- ==== Sys2Proof/Safety.lean ====
section
/-! DEFINITION. The invariant every step keeps, and the terms statements are made in. -/

namespace Sys2Proof.Machine

/-- The byte-at-a-time encoder (R78, R21): at a message boundary its registers are the cleared ones; in the middle of a message
it has emitted `pos` bytes, and while `REC_IN` has not changed they are the first bytes of the frame of the record there. -/
def SerialEncoder.sound (c : Config) (r : Record) (e : SerialEncoder) : Prop :=
  e = .cleared ∨
    (1 ≤ e.pos ∧ e.pos ≤ 49 ∧ e.emitted.length = e.pos ∧ (e.changed = false → e.emitted = (encFrame c r).take e.pos))

/-- The byte-at-a-time decoder's registers (R97): `pos` saturates at 50; at a message boundary they are the cleared ones
(R21, R24); between words the accumulator is clear; and in a word its bytes are noted. -/
def SerialDecoder.sound (d : SerialDecoder) : Prop :=
  d.pos ≤ 50 ∧ (d.pos = 0 → d = .cleared) ∧ ((d.pos - 1) % 8 = 0 → d.acc = 0) ∧
    (d.pos ≤ 49 → d.place.length = (d.pos - 1) % 8)

/-- The invariant of the machine: the constants are legal (R6, R15), what stands on `MSG_OUT` is a canonical frame (R107 to
R110), and the working registers of the byte-at-a-time forms are sound. -/
def Inv (s : State) : Prop :=
  s.cfg.legal = true ∧ (∀ m, s.msgOut = some m → canonical s.cfg m = true) ∧ s.encSer.sound s.cfg s.recIn ∧ s.decSer.sound

/-- The next state of an outcome, if it is one. -/
def nextOf {σ φ ρ : Type} : Host.Outcome σ φ ρ → Option σ
  | .next s => some s
  | .fault _ => none
  | .refused _ => none

/-- `n` steps of the block, stopping at a refusal. -/
def runSteps : Nat → State → Host.Outcome State Fault Refusal
  | 0, s => .next s
  | n + 1, s =>
    match step s with
    | .next s' => runSteps n s'
    | .fault e => .fault e
    | .refused e => .refused e

/-- Two instances use the same markers (R118, R167). -/
def sameMarkers (c c' : Config) : Prop := c.start = c'.start ∧ c.stop = c'.stop

/-- The invariant of a session: it owns its channel until it is done (R143, R146; the release in the step of `Done` is the
model's, log 17), it is done only with nothing awaited and
nothing to send, and no request is sent in the state `Done` (R126). -/
def Session.Inv (s : Session) : Prop :=
  (s.phase = .done ↔ s.channel.owned = false) ∧ (s.phase = .done → s.key = none ∧ s.todo = []) ∧
    ∀ q ∈ s.todo, q.phase ≠ .done

/-- A device that acknowledges each awaited request (R123): `reply` is the record it answers with, and nothing is assumed
of that but its word 0. DESIGN CHOICE (log 17): this device is narrower than R123's duty, which leaves open how soon the
device replies and whether it sends messages nobody asked for (U7). Each reply is there at the first poll, is a canonical
frame, and nothing else is sent. -/
def acknowledgements (c : Config) (reply : Request → Record) (qs : List Request) : List (Option Message) :=
  (qs.filter Request.awaited).map (fun q => some (encFrame c (reply q)))

/-- What may stand between a token's sign and its digits: nothing, or, where the parameter allows it, `0x` or `0X` (R63, N12). -/
def TextSyntax.AllowsPrefix (x : TextSyntax) (pre : List Char) : Prop :=
  pre = [] ∨ (x.prefix0x = true ∧ (pre = ['0', 'x'] ∨ pre = ['0', 'X']))

end Sys2Proof.Machine
end

