-- ==== Sys2Proof/Certificates/Slice0/Obligations.lean ====
section
/-! DEFINITION. The statements of this row. Each docstring names the rules of spec/ it formalises. Unless one says otherwise it
holds for every value of the markers and every high-nibble policy, the free one (`unlisted`) among them. -/

open Sys2Proof Sys2Proof.Machine

/-! ## ENC -/

/-- R71, R107. `ENC` of any record, in any state, completes: the record stands on `REC_IN`, a message of exactly 50 bytes
stands on `MSG_OUT`, and nothing else changes. Byte 0 is `START`, byte 49 is `END`, and byte `1 + 8*k + t` is nibble `7 - t`
of word `k`, `(w >> 4*(7-t)) & 0xF`. -/
def Obligations.EncWritesTheFrameOfTheRecord : Prop :=
  ∀ (r : Record) (s : State), ∃ M : Message,
    exec (.enc r) s = .next { s with recIn := r, msgOut := some M } ∧
    M.length = 50 ∧ M[0]? = some s.cfg.start ∧ M[49]? = some s.cfg.stop ∧
    ∀ k < 6, ∀ t < 8, M[1 + 8 * k + t]? = some (((word r k >>> (4 * (7 - t))) &&& 0xF#32).setWidth 8)

/-- R106. Two records with the same message are the same record. -/
def Obligations.EncIsInjective : Prop :=
  ∀ (r r' : Record) (s t t' : State),
    exec (.enc r) s = .next t → exec (.enc r') s = .next t' → t.msgOut = t'.msgOut → r = r'

/-- R108, R109. With legal markers (R6), no byte of a frame at index 1 to 48 is above `0x0F` or equals a marker, and the bytes
in the marker range `0xF0 .. 0xFF` are those at index 0 and 49. -/
def Obligations.FramePayloadNeverHoldsAMarker : Prop :=
  ∀ (r : Record) (s t : State) (M : Message), s.cfg.markersLegal = true →
    exec (.enc r) s = .next t → t.msgOut = some M →
    ∀ (j : Nat) (b : Byte), M[j]? = some b →
      (1 ≤ j → j ≤ 48 → b ≤ 0x0F#8 ∧ b ≠ s.cfg.start ∧ b ≠ s.cfg.stop) ∧ (0xF0#8 ≤ b ↔ j = 0 ∨ j = 49)

/-- R117. Of two frames made in one state, the bytes at 0 and 49 are equal, and the byte that carries nibble `i` of word `k`
differs exactly if that nibble differs: words do not interact, and a changed nibble changes one byte. -/
def Obligations.EachFrameByteDependsOnItsNibbleAlone : Prop :=
  ∀ (r r' : Record) (s t t' : State) (M M' : Message),
    exec (.enc r) s = .next t → exec (.enc r') s = .next t' → t.msgOut = some M → t'.msgOut = some M' →
    M[0]? = M'[0]? ∧ M[49]? = M'[49]? ∧
    ∀ k < 6, ∀ i < 8, (M[1 + 8 * k + (7 - i)]? = M'[1 + 8 * k + (7 - i)]? ↔ nib (word r k) i = nib (word r' k) i)

/-! ## DEC -/

/-- R89. `DEC` of any message, in any state, completes: the message stands on `MSG_IN`, a record on `REC_OUT`, nothing else
changes. The record is `ZERO6` unless `L >= 50`, byte 0 is `START` and byte 49 is `END`, and then word `k` is the sum over `t`
of nibble `t` of its place times `16^(7-t)`. Under `mask` for every message, and under every policy for messages whose payload
bytes are at most `0x0F`. -/
def Obligations.DecAssemblesTheRecord : Prop :=
  ∀ (m : Message) (s : State),
    (s.cfg.policy = .mask ∨ ∀ j b, 1 ≤ j → j ≤ 48 → m[j]? = some b → b ≤ 0x0F#8) →
    ∃ V : Record,
      exec (.dec m) s = .next { s with msgIn := m, recOut := some V } ∧
      (¬ (50 ≤ m.length ∧ m[0]? = some s.cfg.start ∧ m[49]? = some s.cfg.stop) → V = zero6) ∧
      (50 ≤ m.length → m[0]? = some s.cfg.start → m[49]? = some s.cfg.stop →
        ∀ k < 6, (word V k).toNat =
          ∑ t ∈ Finset.range 8, (m.getD (1 + 8 * k + t) 0).toNat % 16 * 16 ^ (7 - t))

/-- R92. `DEC` is defined for every message, in every state and under every policy, and touches its two ports alone. -/
def Obligations.DecAnswersEveryMessage : Prop :=
  ∀ (m : Message) (s : State), ∃ V : Record,
    exec (.dec m) s = .next { s with msgIn := m, recOut := some V }

/-- R87, R113. A message shorter than 50 bytes, or with another byte 0 than `START`, or with another byte 49 than `END`, gives
`ZERO6` and does nothing else, under every policy. -/
def Obligations.DecRejectsMalformedMessages : Prop :=
  ∀ (m : Message) (s : State),
    m.length < 50 ∨ m[0]? ≠ some s.cfg.start ∨ m[49]? ≠ some s.cfg.stop →
    exec (.dec m) s = .next { s with msgIn := m, recOut := some zero6 }

/-- R58's table and D3, which are the spec's own decision (log 5). Of a message that passes the three tests: `or_wrap` ORs the
whole bytes in, `add_wrap` adds them modulo `2^32`, and `reject` answers `ZERO6` if a payload byte is above `0x0F`. -/
def Obligations.DecFollowsTheHighNibblePolicy : Prop :=
  ∀ (m : Message) (s : State),
    50 ≤ m.length → m[0]? = some s.cfg.start → m[49]? = some s.cfg.stop →
    ∃ V : Record,
      exec (.dec m) s = .next { s with msgIn := m, recOut := some V } ∧
      (s.cfg.policy = .orWrap → ∀ k < 6,
        word V k = ((List.range 8).map fun t =>
          (m.getD (1 + 8 * k + t) 0).setWidth 32 <<< (4 * (7 - t))).foldl (fun a w => a ||| w) 0) ∧
      (s.cfg.policy = .addWrap → ∀ k < 6,
        (word V k).toNat = (∑ t ∈ Finset.range 8, (m.getD (1 + 8 * k + t) 0).toNat * 16 ^ (7 - t)) % 2 ^ 32) ∧
      (s.cfg.policy = .reject → (∃ j b, 1 ≤ j ∧ j ≤ 48 ∧ m[j]? = some b ∧ 0x0F#8 < b) → V = zero6)

/-- R91. A message longer than 50 bytes is answered as its first 50 bytes are; so a frame followed by any bytes gives its
record, and a message whose last byte is `END` but whose byte 49 is not is rejected. -/
def Obligations.DecIgnoresBytesPastTheFrame : Prop :=
  ∀ (m : Message) (s : State), 50 < m.length →
    (∃ V : Record,
      exec (.dec (m.take 50)) s = .next { s with msgIn := (m.take 50), recOut := some V } ∧
      exec (.dec m) s = .next { s with msgIn := m, recOut := some V }) ∧
    (∀ (r : Record) (t : State), exec (.enc r) s = .next t → t.msgOut = some (m.take 50) →
      exec (.dec m) s = .next { s with msgIn := m, recOut := some r }) ∧
    (m.getLast? = some s.cfg.stop → m[49]? ≠ some s.cfg.stop →
      exec (.dec m) s = .next { s with msgIn := m, recOut := some zero6 })

/-- R112, for the policies with no further reject condition: of two messages that pass the three tests, output word `k` is the
same if the eight bytes of its place are. -/
def Obligations.DecWordDependsOnItsPlaceAlone : Prop :=
  ∀ (m m' : Message) (s t t' : State) (V V' : Record) (k : Nat),
    s.cfg.policy = .mask ∨ s.cfg.policy = .orWrap ∨ s.cfg.policy = .addWrap →
    50 ≤ m.length → m[0]? = some s.cfg.start → m[49]? = some s.cfg.stop →
    50 ≤ m'.length → m'[0]? = some s.cfg.start → m'[49]? = some s.cfg.stop →
    k < 6 → (∀ j, 1 + 8 * k ≤ j → j ≤ 8 + 8 * k → m[j]? = m'[j]?) →
    exec (.dec m) s = .next t → exec (.dec m') s = .next t' → t.recOut = some V → t'.recOut = some V' →
    word V k = word V' k

/-- R22, R77, R93 (which function a policy has is R58's table, and for `unlisted` a free one, U1, log 5). `ENC` and `DEC` apply the
same transformation to every word: under any policy one function `F` reads the eight bytes of each word place, one predicate `J`
says whether a place makes the message malformed, and one function `G` writes each word, whichever word it is. -/
def Obligations.EveryWordIsTreatedAlike : Prop :=
  (∀ p : HighNibblePolicy, ∃ (F : List Byte → Word) (J : List Byte → Bool), ∀ (m : Message) (s : State), s.cfg.policy = p →
    50 ≤ m.length → m[0]? = some s.cfg.start → m[49]? = some s.cfg.stop →
    ∃ V : Record,
      exec (.dec m) s = .next { s with msgIn := m, recOut := some V } ∧
      ((∃ k < 6, J ((m.drop (1 + 8 * k)).take 8) = true) → V = zero6) ∧
      ((∀ k < 6, J ((m.drop (1 + 8 * k)).take 8) = false) → ∀ k < 6, word V k = F ((m.drop (1 + 8 * k)).take 8))) ∧
  ∃ G : Word → List Byte, ∀ (r : Record) (s : State), ∃ M : Message,
    exec (.enc r) s = .next { s with recIn := r, msgOut := some M } ∧
    ∀ k < 6, (M.drop (1 + 8 * k)).take 8 = G (word r k)

/-- R95 and the row "one stray byte, then a good frame" of R98. With legal markers (R6), a byte in front of a frame makes the
message malformed whatever the byte is: `DEC` does not search. -/
def Obligations.DecDoesNotSearchForAFrame : Prop :=
  ∀ (r : Record) (x : Byte) (tail : List Byte) (s t : State) (M : Message), s.cfg.markersLegal = true →
    exec (.enc r) s = .next t → t.msgOut = some M →
    exec (.dec (x :: M ++ tail)) s = .next { s with msgIn := (x :: M ++ tail), recOut := some zero6 }

/-! ## ENC and DEC together -/

/-- R105. Whatever is encoded is decoded back, for every record, every pair of markers and every policy: the message `ENC`
leaves on `MSG_OUT`, given to `DEC`, leaves the record on `REC_OUT`. -/
def Obligations.DecodingAnEncodedRecordGivesItBack : Prop :=
  ∀ (r : Record) (s : State), ∃ M : Message,
    exec (.enc r) s = .next { s with recIn := r, msgOut := some M } ∧
    exec (.dec M) { s with recIn := r, msgOut := some M } =
      .next { s with recIn := r, msgOut := some M, msgIn := M, recOut := some r }

/-- R110. Encoding what was decoded gives the message back exactly if the message is canonical: 50 bytes, the markers in their
places, every payload byte at most `0x0F`. -/
def Obligations.EncodingADecodedMessageGivesItBackIffCanonical : Prop :=
  ∀ (b : Message) (s : State), ∃ (V : Record) (M : Message),
    exec (.dec b) s = .next { s with msgIn := b, recOut := some V } ∧
    exec (.enc V) { s with msgIn := b, recOut := some V } =
      .next { s with msgIn := b, recOut := some V, recIn := V, msgOut := some M } ∧
    (M = b ↔ b.length = 50 ∧ b[0]? = some s.cfg.start ∧ b[49]? = some s.cfg.stop ∧
      ∀ j x, 1 ≤ j → j ≤ 48 → b[j]? = some x → x ≤ 0x0F#8)

/-- R110, second part. Under `mask`, encoding what was decoded from a well-formed message gives the message cut to 50 bytes with
bits 7 to 4 of every payload byte cleared. -/
def Obligations.MaskClearsTheHighNibbles : Prop :=
  ∀ (b : Message) (s : State), s.cfg.policy = .mask →
    50 ≤ b.length → b[0]? = some s.cfg.start → b[49]? = some s.cfg.stop →
    ∃ (V : Record) (M : Message),
      exec (.dec b) s = .next { s with msgIn := b, recOut := some V } ∧
      exec (.enc V) s = .next { s with recIn := V, msgOut := some M } ∧
      M.length = 50 ∧ M[0]? = b[0]? ∧ M[49]? = b[49]? ∧
      ∀ j, 1 ≤ j → j ≤ 48 → M[j]? = b[j]?.map (fun x => x &&& 0x0F#8)

/-- R118. The decoder of one instance gives back a record (other than `ZERO6`) from a frame of another instance's encoder if
both have the same markers, and `ZERO6` if not. -/
def Obligations.InstancesInteroperateIffMarkersAgree : Prop :=
  ∀ (r : Record) (s s' : State), r ≠ zero6 →
    ∃ (M : Message) (V : Record),
      exec (.enc r) s = .next { s with recIn := r, msgOut := some M } ∧
      exec (.dec M) s' = .next { s' with msgIn := M, recOut := some V } ∧
      (sameMarkers s.cfg s'.cfg → V = r) ∧ (¬ sameMarkers s.cfg s'.cfg → V = zero6)

/-- R42 (b), R10. A step of the encoder unit and a step of the decoder unit may be taken in either order. -/
def Obligations.EncoderAndDecoderStepsCommute : Prop :=
  ∀ (r : Record) (m : Message) (s : State), ∃ t t' u : State,
    exec (.enc r) s = .next t ∧ exec (.dec m) t = .next u ∧
    exec (.dec m) s = .next t' ∧ exec (.enc r) t' = .next u

/-- R11, R42 (a). The output of an operation is a function of its operand and of the constants: in two states with the same
constants it is the same, whatever was done before. -/
def Obligations.OutputsDependOnOperandAndConstantsAlone : Prop :=
  ∀ (s s' : State), s.cfg = s'.cfg →
    (∀ (r : Record) (t t' : State), exec (.enc r) s = .next t → exec (.enc r) s' = .next t' → t.msgOut = t'.msgOut) ∧
    (∀ (m : Message) (t t' : State), exec (.dec m) s = .next t → exec (.dec m) s' = .next t' → t.recOut = t'.recOut)

/-- R94, R111. `ZERO6` is the answer to the frame of `ZERO6` and to every malformed message (too short, or with another byte 0
than `START`, or with another byte 49 than `END`), so it tells nothing. -/
def Obligations.ZeroRecordIsAmbiguous : Prop :=
  ∀ (s : State) (m : Message), m.length < 50 ∨ m[0]? ≠ some s.cfg.start ∨ m[49]? ≠ some s.cfg.stop →
    ∃ M : Message,
      exec (.enc zero6) s = .next { s with recIn := zero6, msgOut := some M } ∧
      exec (.dec M) s = .next { s with msgIn := M, recOut := some zero6 } ∧
      exec (.dec m) s = .next { s with msgIn := m, recOut := some zero6 }

/-- R116. A word is the sum of its nibbles by place, and a word that is such a sum of eight nibbles has them as its nibbles. -/
def Obligations.NibblesDecomposeAWord : Prop :=
  (∀ w : Word, w.toNat = ∑ i ∈ Finset.range 8, (nib w i).toNat * 16 ^ i) ∧
  ∀ (n : Nat → Nibble) (v : Word), v.toNat = ∑ t ∈ Finset.range 8, (n t).toNat * 16 ^ (7 - t) →
    ∀ t < 8, nib v (7 - t) = n t

/-- R115. Under `mask` and `reject` the accumulator after `t` payload bytes is below `16^t`, and taking in a further byte is
multiplication by 16 and addition of its low nibble: OR and addition agree and the reduction removes nothing. -/
def Obligations.AccumulatorNeverWraps : Prop :=
  ∀ (p : HighNibblePolicy) (bs : List Byte) (b : Byte), p = .mask ∨ p = .reject → bs.length < 8 →
    (accumulateAll p 0 bs).toNat < 16 ^ bs.length ∧
    (accumulateAll p 0 (bs ++ [b])).toNat = (accumulateAll p 0 bs).toNat * 16 + b.toNat % 16

/-! ## The byte-at-a-time forms -/

/-- R78. From a message boundary, with fifty byte steps asked, the encoder leaves on `MSG_OUT` the message `ENC` makes of the
record on `REC_IN`, is at a boundary again, and has changed nothing else. (That the message stands whole on `MSG_OUT` with its
last byte is the model's, log 10, and that `REC_IN` keeps its value between the steps is the model's, log 8.) -/
def Obligations.FiftyByteStepsEmitTheFrame : Prop :=
  ∀ (s : State) (rest : List Event),
    s.inputs = List.replicate 50 .emitByte ++ rest → s.encSer = .cleared →
    ∃ M : Message,
      exec (.enc s.recIn) s = .next { s with msgOut := some M } ∧
      runSteps 50 s = .next { s with msgOut := some M, inputs := rest }

/-- U12, R78 (that the change is noted where `REC_IN` changes is the model's, log 11). Once `REC_IN` has changed in the middle of
an emission, by a record presented or by an `ENC`, the message is emitted no further until reset: every step keeps the note and
the position, and a byte step is refused. So a record changed and put back is refused too. -/
def Obligations.RecordChangedInMidEmissionIsNeverEmitted : Prop :=
  (∀ s t : State, step s = .next t → s.encSer.pos ≠ 0 → s.encSer.changed = true ∨ t.recIn ≠ s.recIn →
    (t.encSer.changed = true ∧ t.encSer.pos = s.encSer.pos) ∨
      (t.encSer = { pos := 0, changed := false, emitted := [] } ∧ ∃ rest, s.inputs = .reset :: rest)) ∧
  (∀ (s : State) (rest : List Event), s.inputs = .emitByte :: rest → s.encSer.changed = true →
    step s = .refused .recordChanged) ∧
  (∀ (s : State) (r : Record) (rest : List Event),
    s.inputs = .presentRecord r :: .presentRecord s.recIn :: .emitByte :: rest → s.encSer.pos ≠ 0 → r ≠ s.recIn →
    runSteps 3 s = .refused .recordChanged)

/-- R97. From a message boundary, the bytes of any message given one a step and then the end of the message leave on `REC_OUT`
the record `DEC` makes of that message, the working registers cleared, and nothing else changed; under every policy. (That
`MSG_IN` stays as it was is the model's, log 10.) -/
def Obligations.ByteWiseDecodingGivesWhatDecGives : Prop :=
  ∀ (m : Message) (s : State) (rest : List Event),
    s.inputs = m.map .receiveByte ++ .endOfMessage :: rest → s.decSer = .cleared →
    ∃ V : Record,
      exec (.dec m) s = .next { s with msgIn := m, recOut := some V } ∧
      runSteps (m.length + 1) s = .next { s with recOut := some V, inputs := rest }

/-- R12, R78, R97. One step of the byte-at-a-time forms, and what it leaves alone. Presenting a record changes `REC_IN`, and in
the middle of an emission notes a change of the record (the note is the model's, log 11). A received byte changes the decoder's
registers only: it advances `pos`, and a byte past the fiftieth is ignored. An emitted byte before the last changes the
encoder's registers only: it is `enc_byte` of the record at `pos`. The last one is `END`; it leaves the registers of a message
boundary, and the whole message on `MSG_OUT` (the model's, log 10). -/
def Obligations.ByteStepsTouchTheirOwnRegistersAlone : Prop :=
  (∀ (r : Record) (s : State) (rest : List Event), s.inputs = .presentRecord r :: rest →
    step s = .next { s with
      recIn := r,
      encSer := { s.encSer with changed := s.encSer.changed || (decide (s.encSer.pos ≠ 0) && decide (r ≠ s.recIn)) },
      inputs := rest }) ∧
  (∀ (b : Byte) (s : State) (rest : List Event), s.inputs = .receiveByte b :: rest →
    ∃ d : SerialDecoder, step s = .next { s with decSer := d, inputs := rest } ∧
      (s.decSer.pos < 50 → d.pos = s.decSer.pos + 1) ∧ (50 ≤ s.decSer.pos → d = s.decSer)) ∧
  (∀ (s : State) (rest : List Event), s.inputs = .emitByte :: rest → s.encSer.pos < 49 → s.encSer.changed = false →
    step s = .next { s with
      encSer := { pos := s.encSer.pos + 1, changed := false,
                  emitted := s.encSer.emitted ++ [encByte s.cfg s.recIn s.encSer.pos] },
      inputs := rest }) ∧
  (∀ (s : State) (rest : List Event), s.inputs = .emitByte :: rest → s.encSer.pos = 49 → s.encSer.changed = false →
    step s = .next { s with
      msgOut := some (s.encSer.emitted ++ [s.cfg.stop]),
      encSer := { pos := 0, changed := false, emitted := [] },
      inputs := rest })

/-- R165, R24. Reset, in the middle of anything, gives the reset state of the same constants: no output, working registers
cleared. (That the environment's further inputs stay is the model's, log 12, and so are the values of the input ports, for
which R24 has none, log 8, and the notes of the byte-at-a-time forms, log 10, log 11.) -/
def Obligations.ResetAbandonsWhatIsInProgress : Prop :=
  ∀ (s : State) (rest : List Event), s.inputs = .reset :: rest →
    step s = .next
      { cfg := s.cfg, recIn := zero6, msgOut := none, msgIn := [], recOut := none,
        encSer := { pos := 0, changed := false, emitted := [] },
        decSer := { pos := 0, ok := true, acc := 0, out := zero6, place := [] },
        inputs := rest }

/-! ## The machine -/

/-- R24's table. At reset the output ports have no value and the working registers have the values of the table. The values of
the input ports are the model's (DESIGN CHOICE, log 8: R24 gives them none), as is the decoder's note of bytes (log 10), the constants are the spec's own defaults
(PRESUMED, log 4; no bound on a message, DESIGN CHOICE, log 6), and the empty list of inputs is the model's (log 3). -/
def Obligations.ResetLeavesTheRegistersClearedAndPortsWithoutValue : Prop :=
  State.reset.msgOut = none ∧ State.reset.recOut = none ∧ State.reset.recIn = zero6 ∧ State.reset.msgIn = [] ∧
    State.reset.encSer.pos = 0 ∧ State.reset.decSer = { pos := 0, ok := true, acc := 0, out := zero6, place := [] } ∧
    State.reset.cfg = { start := 0xF0, stop := 0xF7, policy := .mask, maxLen := none } ∧ State.reset.inputs = []

/-- R17, R25 (the list of inputs is the model's, log 3). A requested operation is run by the step as exec runs it; a word that
decodes to an operation, placed where the step takes its next input, is run as exec runs it. All the step adds is the note, in
the middle of a byte-at-a-time emission, that `REC_IN` has changed (log 11). With nothing asked nothing changes. -/
def Obligations.StepRunsTheRequestedOperation : Prop :=
  (∀ (i : Instr) (s : State) (rest : List Event), s.inputs = .request i :: rest →
    ∃ t : State, exec i { s with inputs := rest } = .next t ∧
      step s = .next (if s.encSer.pos ≠ 0 ∧ t.recIn ≠ s.recIn then { t with encSer := { t.encSer with changed := true } }
        else t)) ∧
  (∀ (nbits w : Nat) (i : Instr) (s : State), decodeTableWord nbits w = some i →
    ∃ t : State, exec i s = .next t ∧
      step (s.withFetchWord nbits w) =
        .next (if s.encSer.pos ≠ 0 ∧ t.recIn ≠ s.recIn then { t with encSer := { t.encSer with changed := true } } else t)) ∧
  (∀ s : State, s.inputs = [] → step s = .next s)

/-- R26, R24. Taking an output gives the port no value and changes nothing else; taking from a port that has no value is refused
(that such a read is refused is U10 and D10, the spec's own decision, log 7). -/
def Obligations.TakingAnOutputEmptiesItsPort : Prop :=
  (∀ (s : State) (rest : List Event) (M : Message), s.inputs = .takeMessage :: rest → s.msgOut = some M →
    step s = .next { s with msgOut := none, inputs := rest }) ∧
  (∀ (s : State) (rest : List Event) (V : Record), s.inputs = .takeRecord :: rest → s.recOut = some V →
    step s = .next { s with recOut := none, inputs := rest }) ∧
  (∀ (s : State) (rest : List Event), s.inputs = .takeMessage :: rest → s.msgOut = none →
    step s = .refused .noOutputValue) ∧
  (∀ (s : State) (rest : List Event), s.inputs = .takeRecord :: rest → s.recOut = none →
    step s = .refused .noOutputValue)

/-- R150, U10, U12. No step faults. A step is refused exactly if the environment takes an output that has no value (U10, D10,
the spec's own decision, log 7), or lets the byte-at-a-time encoder go on after `REC_IN` changed in the middle of the message
(U12; the note of the change is the model's, log 11). -/
def Obligations.OnlyMisuseByTheEnvironmentIsRefused : Prop :=
  ∀ s : State, (∀ f, step s ≠ .fault f) ∧
    ((∃ e, step s = .refused e) ↔
      ∃ rest : List Event,
        (s.inputs = .takeMessage :: rest ∧ s.msgOut = none) ∨
        (s.inputs = .takeRecord :: rest ∧ s.recOut = none) ∨
        (s.inputs = .emitByte :: rest ∧ s.encSer.changed = true))

/-- R19. No step writes the constants of the instance. -/
def Obligations.ConstantsAreNeverWritten : Prop :=
  ∀ s t : State, step s = .next t → t.cfg = s.cfg

/-- Every step keeps the invariant, from every state that has it: legal constants (R6, R15), a canonical frame on `MSG_OUT`
whenever a message stands there (R107 to R109), sound working registers of the byte-at-a-time forms (R21, R78, R97; the
encoder's bytes emitted and its note of a change are the model's, log 10, log 11). -/
def Obligations.EveryStepKeepsTheMachineSound : Prop :=
  ∀ s t : State, Inv s → step s = .next t → Inv t

/-- The invariant holds at reset. -/
def Obligations.ResetStateIsSound : Prop := Inv State.reset

/-! ## The table of operations -/

/-- R60, R61. The image of every well-formed operation, read for the unit that performs it, is that operation: every record and
every message the decoder's port can carry. -/
def Obligations.DecodingAnEncodedOperationGivesItBack : Prop :=
  ∀ (c : Config) (i : Instr), i.wf c = true → decodeFor c i.unit (encode c i) = .ok i

/-- R57, R61 (that the row ENC is tried before the row DEC that contains it is the model's, log 1). With any legal `MAX_LEN` or
none (R15), a frame reads as `ENC` of its record; a well-formed message that the port can carry and that is no frame, being
longer or having a payload byte above `0x0F`, reads as `DEC` of it; a malformed message, and one longer than `MAX_LEN`, reads as
nothing. -/
def Obligations.TableRowsAreToldApart : Prop :=
  ∀ (c : Config), c.maxLenLegal = true →
    (∀ r : Record, decode c (encode c (.enc r)) = .ok (.enc r)) ∧
    (∀ m : Message, c.carries m = true → 50 ≤ m.length → m[0]? = some c.start → m[49]? = some c.stop →
      (50 < m.length ∨ ∃ j b, 1 ≤ j ∧ j ≤ 48 ∧ m[j]? = some b ∧ 0x0F#8 < b) → decode c m = .ok (.dec m)) ∧
    (∀ m : Message, m.length < 50 ∨ m[0]? ≠ some c.start ∨ m[49]? ≠ some c.stop ∨ c.carries m = false →
      ∃ e, decode c m = .error e)

/-- R61 against R71 and R89. What `ENC` writes is the table's pattern with the record's bits for letters, and under `mask` what
`DEC` answers to a well-formed message is the table's fields of it. -/
def Obligations.OperationsAgreeWithTheTablePattern : Prop :=
  (∀ (r : Record) (s : State),
    exec (.enc r) s = .next { s with recIn := r, msgOut := some (encode s.cfg (.enc r)) }) ∧
  (∀ (m : Message) (s : State), s.cfg.policy = .mask →
    50 ≤ m.length → m[0]? = some s.cfg.start → m[49]? = some s.cfg.stop →
    exec (.dec m) s = .next { s with msgIn := m, recOut := some (fieldRecord m) })

/-- R61, with the default markers (PRESUMED, log 4), the word numbered as log 2 says, and the row ENC tried first (log 1). Words
written out from the pattern: vector V7, and the frame of V2 with byte 1 changed to FF (V32), which only `DEC` fits. -/
def Obligations.WrittenOutWordsDecode : Prop :=
  decodeTableWord 400
      0xF0010000000000000000020000000000000000030000000000000000040000000000000000050000000000000000060000F7 =
    some (.enc ⟨0x10000000, 0x02000000, 0x00300000, 0x00040000, 0x00005000, 0x00000600⟩) ∧
  decodeTableWord 400
      0xF0FF0000000000000000000000000000000000000000000000000000000000000000000000000000000000000000000000F7 =
    some (.dec ([0xF0, 0xFF] ++ List.replicate 47 0x00 ++ [0xF7]))

/-! ## The environment -/

/-- R122. With a key awaited, any number of polls that find nothing and of messages whose word 0 is another lead on, and the
first message whose word 0 is the key ends the wait; nothing is sent meanwhile. (On a zero key a poll that finds nothing may end
the wait, D15: that is `NoneIsPolledAgainUnlessTheKeyIsZero`.) -/
def Obligations.WaitEndsAtTheFirstMatchingReply : Prop :=
  ∀ (s : Session) (key : Word) (others rest : List (Option Message)) (m : Message) (V : Record),
    s.key = some key → s.channel.inbound = others ++ some m :: rest →
    (none ∈ others → key ≠ 0 ∨ s.decodesNone = false) →
    (∀ x, some x ∈ others → ∃ c W, exec (.dec x) s.codec = .next c ∧ c.recOut = some W ∧ W.w0 ≠ key) →
    (∃ c, exec (.dec m) s.codec = .next c ∧ c.recOut = some V) → V.w0 = key →
    (∀ n ≤ others.length, ∃ t, s.run n = .next t ∧ t.key = some key ∧ t.channel.sent = s.channel.sent) ∧
    ∃ t, s.run (others.length + 1) = .next t ∧ t.key = none ∧ t.channel = { s.channel with inbound := rest } ∧
      t.todo = s.todo ∧ t.phase = s.phase

/-- R122, R96, D15, R173. A poll that finds nothing consumes that answer and changes neither the requests, the state of the
protocol nor what was sent, and the wait goes on; but if the key is zero, and under the reading that then decodes `none` as the
empty message, it ends. -/
def Obligations.NoneIsPolledAgainUnlessTheKeyIsZero : Prop :=
  ∀ (s : Session) (key : Word) (rest : List (Option Message)),
    s.key = some key → s.channel.inbound = none :: rest →
    ∃ t, s.step = .next t ∧ t.channel = { s.channel with inbound := rest } ∧ t.todo = s.todo ∧ t.phase = s.phase ∧
      t.key = if key = 0 ∧ s.decodesNone = true then none else some key

/-- R133, R176. A device that never answers is waited for without end: no number of steps ends the wait or sends anything. (On
a zero key this holds under the reading that polls again on `none`; D15 admits the other too, log 17.) -/
def Obligations.SilentDeviceIsWaitedForWithoutEnd : Prop :=
  ∀ (s : Session) (key : Word), s.key = some key → key ≠ 0 ∨ s.decodesNone = false →
    (∀ x ∈ s.channel.inbound, x = none) →
    ∀ n, ∃ t, s.run n = .next t ∧ t.key = some key ∧ t.channel.sent = s.channel.sent ∧ t.todo = s.todo ∧
      t.channel.owned = s.channel.owned

/-- R136, R121. While an acknowledgement is awaited no step sends anything, and only an inbound message that decodes to the
awaited word 0 ends the wait; or, if that word is zero and under the reading of D15 that decodes `none`, a poll that finds
nothing. -/
def Obligations.NothingIsSentWhileAnAcknowledgementIsAwaited : Prop :=
  ∀ (s t : Session) (key : Word), s.key = some key → s.step = .next t →
    t.channel.sent = s.channel.sent ∧ t.todo = s.todo ∧ t.phase = s.phase ∧ t.channel.owned = s.channel.owned ∧
    (t.key = some key ∨
      (t.key = none ∧ ∃ m rest c V, s.channel.inbound = some m :: rest ∧ exec (.dec m) s.codec = .next c ∧
        c.recOut = some V ∧ V.w0 = key) ∨
      (t.key = none ∧ key = 0 ∧ s.decodesNone = true ∧ ∀ m, s.channel.inbound.head? ≠ some (some m)))

/-- R173, R135. A malformed reply ends the wait exactly if the awaited key is zero. -/
def Obligations.MalformedReplyEndsAWaitIffTheKeyIsZero : Prop :=
  ∀ (s : Session) (key : Word) (m : Message) (rest : List (Option Message)),
    s.key = some key → s.channel.inbound = some m :: rest →
    m.length < 50 ∨ m[0]? ≠ some s.codec.cfg.start ∨ m[49]? ≠ some s.codec.cfg.stop →
    ∃ t, s.step = .next t ∧ t.channel = { s.channel with inbound := rest } ∧ (t.key = none ↔ key = 0)

/-- R137, R146, R11. A step of a session keeps nothing in the block: with its ports empty before, the block is after the step as
it was before, for the record, the frame, the message and the reply are discarded. (What an empty input port holds is the
model's, log 8. The block may be in the middle of a byte-at-a-time message: that a session leaves such an emission as it was,
without a note that `REC_IN` has changed, is the model's, log 17 and log 11.) -/
def Obligations.SessionStepsLeaveNothingInTheBlock : Prop :=
  ∀ s t : Session, s.step = .next t →
    s.codec.recIn = unpresentedRecord → s.codec.msgIn = unpresentedMessage → s.codec.msgOut = none →
    s.codec.recOut = none → t.codec = s.codec

/-- R143, R146, R126. A session owns its channel from its start until it is done and no longer, is done only with nothing awaited
and nothing to send, and every step keeps that. (That the release is in the same step as `Done` is the model's, log 17: R143
leaves it to the caller.) -/
def Obligations.SessionOwnsItsChannelUntilDone : Prop :=
  ∀ s t : Session, s.Inv → s.step = .next t → t.Inv

/-- R126 to R132, R143. With a device that acknowledges each awaited request (R123) at the first poll by a frame, whatever the
frame holds besides word 0, and sends nothing else (a device narrower than R123's, the model's, log 17), every
flow runs to its end, has sent the frames of its requests, each once and in order, and has released the channel. (That a flow
with no requests, and the sample flow, end in `Done` is the model's, log 14; that the release is in the last step, and that `send`
always takes the message, is the model's, log 17.) -/
def Obligations.AcknowledgedFlowSendsEveryRequestInOrder : Prop :=
  ∀ (codec : State) (k : ProtocolConsts) (f : Flow) (reply : Request → Record),
    (∀ q, (reply q).w0 = q.record.w0) →
    ∃ n t, (Session.start codec k f ⟨false, acknowledgements codec.cfg reply (f.requests k), []⟩).run n = .next t ∧
      t.phase = .done ∧ t.key = none ∧ t.todo = [] ∧ t.channel.inbound = [] ∧ t.channel.owned = false ∧
      t.channel.sent.map some = (f.requests k).map (fun q => (nextOf (exec (.enc q.record) codec)).bind State.msgOut)

/-- R127 to R129, C2, C3. A firmware flow is the erase record, one record for each chunk of 16 bytes and the finalize record;
every one but finalize is awaited; chunk `n` holds image bytes `16n .. 16n+15` four a word, big-endian, zero past the end of
the image, and its word 5 is zero. (That finalize is sent in the state `Verifying-tail` is DEDUCED, log 14.) -/
def Obligations.FirmwareIsSentInPaddedChunks : Prop :=
  ∀ (k : ProtocolConsts) (image : List Byte), ∃ chunks : List Request,
    (Flow.firmware image).requests k =
      ⟨⟨k.erase, 0, 0, 0, 0, 0⟩, .erasing, true⟩ :: (chunks ++ [⟨⟨k.finalizeCmd, 0, 0, 0, 0, 0⟩, .verifyingTail, false⟩]) ∧
    image.length ≤ 16 * chunks.length ∧ 16 * chunks.length < image.length + 16 ∧
    ∀ n q, chunks[n]? = some q →
      q.awaited = true ∧ q.record.w0 = k.writeCmd ∧ q.record.w5 = 0 ∧
      ∀ i < 4, (word q.record (1 + i)).toNat =
        (image.getD (16 * n + 4 * i) 0).toNat * 2 ^ 24 + (image.getD (16 * n + 4 * i + 1) 0).toNat * 2 ^ 16 +
          (image.getD (16 * n + 4 * i + 2) 0).toNat * 2 ^ 8 + (image.getD (16 * n + 4 * i + 3) 0).toNat

/-- R130, R145 (two's complement of a sample in `-2^31 .. 2^31-1` is the spec's own, D20; that a sample outside that range is
reduced in the same way, and that the tag's sum is a word's, is the model's, log 15). A sample flow is groups of five, cut off
at the block limit; block `n` is tagged `BASE_ADDR + n`, is awaited, and holds samples `5n .. 5n+4` modulo `2^32`, zero past
the end. -/
def Obligations.SamplesAreSentInTaggedBlocks : Prop :=
  ∀ (k : ProtocolConsts) (ss : List Int),
    ((Flow.samples ss).requests k).length ≤ k.blockLimit ∧
    (ss.length ≤ 5 * ((Flow.samples ss).requests k).length ∨ ((Flow.samples ss).requests k).length = k.blockLimit) ∧
    5 * ((Flow.samples ss).requests k).length < ss.length + 5 ∧
    ∀ n q, ((Flow.samples ss).requests k)[n]? = some q →
      q.awaited = true ∧ q.record.w0.toNat = (k.baseAddr.toNat + n) % 2 ^ 32 ∧
      ∀ i < 5, ((word q.record (1 + i)).toNat : Int) = ss.getD (5 * n + i) 0 % 2 ^ 32

/-- R64, R131, R132, R138, R140. A batch text whose lines are all good gives their records to the end of the input; one with a
short line or a bad token gives the records of the lines before it and no more. (What a short line is, a blank one among them,
and that a line's tokens past the sixth are not looked at, is log 16.) A batch's requests are its records in order, each one
awaited, and a text launched on a free channel starts a session with the requests of its records (that the suffix `.txt` is
the batch flow is G4's inference, log 16). A single record is one awaited request. The direct mode with short or bad arguments
starts no session; with six good ones, on a free channel, it starts a session with the one awaited request of their record,
token 1 its word 0, and has sent nothing. -/
def Obligations.BadInputEndsABatchAndStopsADirectLaunch : Prop :=
  (∀ good : List Record, batchRecords (good.map (fun r => (wordList r).map some)) = good) ∧
  (∀ (good : List Record) (bad : TokenLine) (rest : List TokenLine),
    bad.length < 6 ∨ (∃ j, j < 6 ∧ bad[j]? = some none) →
    batchRecords (good.map (fun r => (wordList r).map some) ++ bad :: rest) = good) ∧
  (∀ (k : ProtocolConsts) (rs : List Record),
    ((Flow.batch rs).requests k).map Request.record = rs ∧
    ∀ q ∈ (Flow.batch rs).requests k, q.awaited = true ∧ q.phase = .sendingProperties) ∧
  (∀ (k : ProtocolConsts) (r : Record), (Flow.single r).requests k = [⟨r, .sendingSingleProperty, true⟩]) ∧
  (∀ (ch : Channel) (s : State) (k : ProtocolConsts) (text : List Char), ch.owned = false →
    ∃ t : Session, Session.launch ch s k (.txt text) = .ok t ∧
      t.todo = (Flow.batch (batchRecords ((textLines text).map (readLine k.text)))).requests k) ∧
  (∀ (ch : Channel) (s : State) (k : ProtocolConsts) (args : List (List Char)),
    args.length < 6 ∨ (∃ j token, j < 6 ∧ args[j]? = some token ∧ readToken k.text token = none) →
    Session.launch ch s k (.direct args) = .error .badArguments) ∧
  (∀ (ch : Channel) (s : State) (k : ProtocolConsts) (args : List (List Char)) (r : Record),
    args.map (readToken k.text) = (wordList r).map some → ch.owned = false →
    ∃ t : Session, Session.launch ch s k (.direct args) = .ok t ∧ t.todo = [⟨r, .sendingSingleProperty, true⟩] ∧
      t.key = none ∧ t.phase = .idle ∧ t.channel = { ch with owned := true } ∧ t.codec = s)

/-- R63, R138, R140. A token of hexadecimal digits whose number fits a word reads as that number, the first digit the most
significant, and so it does behind a prefix that is allowed; a token with a character that is no digit, `x` or sign, a letter of
a case that is not allowed among them, is bad; and so is every token that is not a run of digits behind at most one sign and an
allowed prefix: an `x` elsewhere, a sign elsewhere, no digits. Which letters are digits and whether a prefix is allowed are
parameters (N12); that a token may have any number of digits, and that one with none is bad, is the model's (log 16). Nothing
is said of a token of digits with a sign or too large for a word, whose reading is a free value (N12, log 16). -/
def Obligations.HexadecimalTokensAreRead : Prop :=
  (∀ (x : TextSyntax) (pre digits : List Char), x.AllowsPrefix pre → digits ≠ [] →
    (∀ c ∈ digits, (hexDigit x c).isSome = true) →
    digits.foldl (fun n c => 16 * n + (hexDigit x c).getD 0) 0 < 2 ^ 32 →
    readToken x (pre ++ digits) = some (BitVec.ofNat 32 (digits.foldl (fun n c => 16 * n + (hexDigit x c).getD 0) 0))) ∧
  (∀ (x : TextSyntax) (token : List Char) (c : Char), c ∈ token → hexDigit x c = none →
    c ≠ 'x' → c ≠ 'X' → c ≠ '+' → c ≠ '-' → readToken x token = none) ∧
  (∀ (x : TextSyntax) (token : List Char),
    (∀ sign pre digits : List Char, sign = [] ∨ sign = ['+'] ∨ sign = ['-'] → x.AllowsPrefix pre →
      token = sign ++ pre ++ digits → digits = [] ∨ ∃ c ∈ digits, hexDigit x c = none) →
    readToken x token = none)

/-- R63, R138. The records written as lines of six eight-digit tokens separated by spaces, in a letter case the reader takes,
read back as those records in order: to the end of the input, and, before a blank line, whatever follows it (that a blank line
ends a batch is the model's, log 16). -/
def Obligations.BatchTextOfRecordsReadsBack : Prop :=
  ∀ (x : TextSyntax) (upper : Bool) (rs : List Record), (if upper then x.upperCase else x.lowerCase) = true →
    textRecords x (rs.flatMap (recordLine upper)) = rs ∧
    ∀ tail : List Char, textRecords x (rs.flatMap (recordLine upper) ++ '\n' :: tail) = rs

/-- R141, R143, R161, U3, U8, U9. The `.dat` mode, a waveform of an unsupported bit depth, and a second session on an owned channel
are given no meaning. A launch on a free channel with a flow acquires it and starts a session that has sent nothing and is idle
(R126) and has the invariant of a session; once that session ends, at its end or by the end of the process, the channel is
free for another launch (that it is free with the step of `Done` is the model's, log 17). -/
def Obligations.LaunchesWithoutMeaningStartNoSession : Prop :=
  ∀ (s : State) (k : ProtocolConsts) (ch : Channel),
    Session.launch ch s k .dat = .error .datModeGap ∧
    Session.launch ch s k (.wav none) = .error .unsupportedBitDepth ∧
    (∀ (l : Launch) (f : Flow), l.flow k.text = .ok f → ch.owned = true → Session.launch ch s k l = .error .channelOwned) ∧
    (∀ (l : Launch) (f : Flow), l.flow k.text = .ok f → ch.owned = false →
      ∃ t : Session, Session.launch ch s k l = .ok t ∧ t.Inv ∧ t.phase = .idle ∧ t.channel = { ch with owned := true } ∧
        t.key = none ∧ t.todo = f.requests k ∧ t.codec = s ∧
        (Session.launch t.channel s k l = .error .channelOwned) ∧
        (∃ u, Session.launch t.terminate s k l = .ok u) ∧ (∃ u, Session.launch t.finish.channel s k l = .ok u))
end

