-- ==== Sys2Proof/Laws/Codec.lean ====
section
/-! SUPPORT. What the operand functions of Machine/Operands.lean and the predicates of Machine/Flags.lean do, once each. -/

namespace Sys2Proof.Machine

/-! ## Words and records -/

@[simp] theorem word_setWord_same (r : Record) (k : Nat) (w : Word) (h : k < 6) : word (setWord r k w) k = w := by
  have : k = 0 ∨ k = 1 ∨ k = 2 ∨ k = 3 ∨ k = 4 ∨ k = 5 := by omega
  rcases this with rfl | rfl | rfl | rfl | rfl | rfl <;> rfl

theorem record_ext_word {r r' : Record} (h : ∀ k < 6, word r k = word r' k) : r = r' := by
  cases r; cases r'
  have h0 := h 0 (by decide)
  have h1 := h 1 (by decide)
  have h2 := h 2 (by decide)
  have h3 := h 3 (by decide)
  have h4 := h 4 (by decide)
  have h5 := h 5 (by decide)
  simp only [word] at h0 h1 h2 h3 h4 h5
  simp [h0, h1, h2, h3, h4, h5]

/-! ## Nibbles (R116) -/

theorem nib_eq_shift_and (w : Word) (i : Nat) : (nib w i).setWidth 32 = (w >>> (4 * i)) &&& 0xF#32 := by
  apply BitVec.eq_of_toNat_eq
  simp only [nib, BitVec.toNat_setWidth, BitVec.extractLsb'_toNat, BitVec.toNat_and, BitVec.toNat_ushiftRight,
    BitVec.toNat_ofNat]
  rw [show 15 % 2 ^ 32 = 2 ^ 4 - 1 by decide, Nat.and_two_pow_sub_one_eq_mod]
  omega

theorem nib_toNat (w : Word) (i : Nat) : (nib w i).toNat = w.toNat / 16 ^ i % 16 := by
  simp only [nib, BitVec.extractLsb'_toNat, Nat.shiftRight_eq_div_pow]
  rw [show (16 : Nat) = 2 ^ 4 by decide, ← pow_mul]

theorem nibByte_toNat (w : Word) (i : Nat) : (nibByte w i).toNat = w.toNat / 16 ^ i % 16 := by
  rw [nibByte, BitVec.toNat_setWidth, nib_toNat]
  omega

theorem nibByte_mod (w : Word) (i : Nat) : (nibByte w i).toNat % 16 = (nib w i).toNat := by
  rw [nibByte_toNat, nib_toNat]
  omega

theorem nibByte_inj {w w' : Word} {i i' : Nat} : nibByte w i = nibByte w' i' ↔ nib w i = nib w' i' := by
  constructor
  · intro h
    have := congrArg BitVec.toNat h
    rw [nibByte_toNat, nibByte_toNat] at this
    apply BitVec.eq_of_toNat_eq
    rw [nib_toNat, nib_toNat, this]
  · intro h; rw [nibByte, nibByte, h]

@[simp] theorem pn_nibByte (w : Word) (i : Nat) : pn (nibByte w i) = nib w i := by
  apply BitVec.eq_of_toNat_eq
  simp only [pn, BitVec.extractLsb'_toNat, Nat.shiftRight_zero, nibByte_toNat, nib_toNat]
  omega

@[simp] theorem aboveNibble_nibByte (w : Word) (i : Nat) : aboveNibble (nibByte w i) = false := by
  have h := nibByte_toNat w i
  simp only [aboveNibble, decide_eq_false_iff_not, BitVec.lt_def, not_lt]
  rw [h]
  have : (0x0F#8 : Byte).toNat = 15 := rfl
  omega

theorem word_eq_nibble_sum (w : Word) :
    w.toNat = (nib w 7).toNat * 16 ^ 7 + (nib w 6).toNat * 16 ^ 6 + (nib w 5).toNat * 16 ^ 5 +
      (nib w 4).toNat * 16 ^ 4 + (nib w 3).toNat * 16 ^ 3 + (nib w 2).toNat * 16 ^ 2 + (nib w 1).toNat * 16 +
      (nib w 0).toNat := by
  have hw := w.isLt
  simp only [nib_toNat]
  omega

/-! ## The accumulate step (R54, R88, R115) -/

/-- On a payload byte at most `0x0F` every policy takes the same step (R58: "all four agree"). -/
theorem accumulate_of_nibble (p : HighNibblePolicy) (acc : Word) (b : Byte) (h : aboveNibble b = false) :
    accumulate p acc b = (acc <<< 4) ||| (pn b).setWidth 32 := by
  have hb : b.toNat ≤ 15 := by
    simp only [aboveNibble, decide_eq_false_iff_not, BitVec.lt_def, not_lt] at h
    exact h
  have hpn : (pn b).setWidth 32 = b.setWidth 32 := by
    apply BitVec.eq_of_toNat_eq
    simp only [pn, BitVec.toNat_setWidth, BitVec.extractLsb'_toNat, Nat.shiftRight_zero]
    omega
  cases p with
  | mask => rfl
  | reject => rfl
  | orWrap => rw [accumulate, hpn]
  | addWrap =>
    rw [accumulate, hpn]
    apply BitVec.add_eq_or_of_and_eq_zero
    apply BitVec.eq_of_toNat_eq
    simp only [BitVec.toNat_and, BitVec.toNat_shiftLeft, BitVec.toNat_setWidth, BitVec.toNat_ofNat]
    rw [Nat.mod_eq_of_lt (show b.toNat < 2 ^ 32 by omega)]
    apply Nat.eq_of_testBit_eq
    intro i
    simp only [Nat.testBit_and, Nat.testBit_mod_two_pow, Nat.testBit_shiftLeft, Nat.zero_testBit, Nat.zero_mod]
    by_cases hi : 4 ≤ i
    · rw [Nat.testBit_lt_two_pow (show b.toNat < 2 ^ i from
        lt_of_lt_of_le (show b.toNat < 2 ^ 4 by omega) (Nat.pow_le_pow_right (by decide) hi))]
      simp
    · simp [hi]
  | unlisted => rfl

/-- The masked step as arithmetic: shift by a nibble and add, reduced to 32 bits. -/
theorem mask_step_toNat (acc : Word) (b : Byte) :
    ((acc <<< 4) ||| (pn b).setWidth 32).toNat = (acc.toNat * 16 + b.toNat % 16) % 2 ^ 32 := by
  have hdisj : (acc <<< 4) ||| (pn b).setWidth 32 = (acc <<< 4) + (pn b).setWidth 32 := by
    symm
    apply BitVec.add_eq_or_of_and_eq_zero
    apply BitVec.eq_of_toNat_eq
    apply Nat.eq_of_testBit_eq
    intro i
    simp only [BitVec.toNat_and, BitVec.toNat_shiftLeft, BitVec.toNat_setWidth, BitVec.toNat_ofNat, Nat.testBit_and,
      Nat.testBit_mod_two_pow, Nat.testBit_shiftLeft, Nat.zero_testBit, Nat.zero_mod]
    by_cases hi : 4 ≤ i
    · rw [Nat.testBit_lt_two_pow (show (pn b).toNat < 2 ^ i from
        lt_of_lt_of_le (pn b).isLt (Nat.pow_le_pow_right (by decide) hi))]
      simp
    · simp [hi]
  rw [hdisj]
  simp only [BitVec.toNat_add, BitVec.toNat_shiftLeft, BitVec.toNat_setWidth, pn, BitVec.extractLsb'_toNat,
    Nat.shiftRight_zero, Nat.shiftLeft_eq]
  omega

@[simp] theorem accumulateAll_nil (p : HighNibblePolicy) (acc : Word) : accumulateAll p acc [] = acc := rfl

@[simp] theorem accumulateAll_cons (p : HighNibblePolicy) (acc : Word) (b : Byte) (bs : List Byte) :
    accumulateAll p acc (b :: bs) = accumulateAll p (accumulate p acc b) bs := rfl

theorem accumulateAll_append (p : HighNibblePolicy) (acc : Word) (bs bs' : List Byte) :
    accumulateAll p acc (bs ++ bs') = accumulateAll p (accumulateAll p acc bs) bs' := by
  induction bs generalizing acc with
  | nil => rfl
  | cons b bs ih => simp only [List.cons_append, accumulateAll_cons, ih]

/-- On bytes at most `0x0F` every policy accumulates what `mask` accumulates. -/
theorem accumulateAll_of_nibbles (p : HighNibblePolicy) (acc : Word) (bs : List Byte)
    (h : ∀ b ∈ bs, aboveNibble b = false) : accumulateAll p acc bs = accumulateAll .mask acc bs := by
  induction bs generalizing acc with
  | nil => rfl
  | cons b bs ih =>
    have hb := h b (by simp)
    rw [accumulateAll_cons, accumulateAll_cons, accumulate_of_nibble p acc b hb, accumulate_of_nibble .mask acc b hb]
    exact ih _ (fun x hx => h x (by simp [hx]))

/-- The four named policies write the accumulator (R88). -/
theorem assemble_of_listed (p : HighNibblePolicy) (bs : List Byte) (h : p ≠ .unlisted) :
    assemble p bs = accumulateAll p 0 bs := by
  cases p <;> first | rfl | exact absurd rfl h

/-- On bytes at most `0x0F` every policy, the free one too, reads what `mask` reads (R58, U1). -/
theorem assemble_of_nibbles (p : HighNibblePolicy) (bs : List Byte) (h : ∀ b ∈ bs, aboveNibble b = false) :
    assemble p bs = accumulateAll .mask 0 bs := by
  have hany : bs.any aboveNibble = false := List.any_eq_false.2 (fun b hb => by simp [h b hb])
  rw [assemble, ← accumulateAll_of_nibbles p 0 bs h]
  cases p <;> simp [finishWord, hany]

/-- Eight bytes under `mask`: the closed form of R54 and R89. -/
theorem accumulateAll_mask_eight (b0 b1 b2 b3 b4 b5 b6 b7 : Byte) :
    (accumulateAll .mask 0 [b0, b1, b2, b3, b4, b5, b6, b7]).toNat =
      b0.toNat % 16 * 16 ^ 7 + b1.toNat % 16 * 16 ^ 6 + b2.toNat % 16 * 16 ^ 5 + b3.toNat % 16 * 16 ^ 4 +
        b4.toNat % 16 * 16 ^ 3 + b5.toNat % 16 * 16 ^ 2 + b6.toNat % 16 * 16 + b7.toNat % 16 := by
  simp only [accumulateAll_cons, accumulateAll_nil, accumulate, mask_step_toNat]
  have h0 : (0 : Word).toNat = 0 := rfl
  rw [h0]
  omega

/-- The eight bytes of a word assemble to it, under every policy. -/
theorem assemble_wordBytes (p : HighNibblePolicy) (w : Word) : assemble p (wordBytes w) = w := by
  rw [assemble_of_nibbles p (wordBytes w) (by simp [wordBytes])]
  apply BitVec.eq_of_toNat_eq
  rw [wordBytes, accumulateAll_mask_eight]
  simp only [nibByte_mod]
  exact (word_eq_nibble_sum w).symm

/-! ## The payload test -/

/-- A place of bytes at most `0x0F` is rejected under no policy. -/
theorem rejectsWord_of_nibbles (p : HighNibblePolicy) (bs : List Byte) (h : ∀ b ∈ bs, aboveNibble b = false) :
    rejectsWord p bs = false := by
  have hany : bs.any aboveNibble = false := List.any_eq_false.2 (fun b hb => by simp [h b hb])
  have hbyte : bs.any (rejectsByte p) = false :=
    List.any_eq_false.2 (fun b hb => by cases p <;> simp [rejectsByte, h b hb])
  cases p <;> simp [rejectsWord, rejectsPlace, hany, hbyte]

/-- `mask`, `or_wrap` and `add_wrap` reject no place (R58's table). -/
theorem rejectsWord_of_total (p : HighNibblePolicy) (bs : List Byte) (h : p = .mask ∨ p = .orWrap ∨ p = .addWrap) :
    rejectsWord p bs = false := by
  rcases h with rfl | rfl | rfl <;> simp [rejectsWord, rejectsByte, rejectsPlace]

/-- `reject` rejects a place with a byte above `0x0F` (R58's table). -/
theorem rejectsWord_reject (bs : List Byte) : rejectsWord .reject bs = bs.any aboveNibble := by
  have : rejectsByte .reject = aboveNibble := rfl
  simp [rejectsWord, rejectsPlace, this]

/-- The further reject condition holds of a message if and only if it holds of a place. -/
theorem rejectsPayload_iff (p : HighNibblePolicy) (m : Message) :
    rejectsPayload p m = true ↔ ∃ k < 6, rejectsWord p (placeBytes m k) = true := by
  simp [rejectsPayload]

theorem rejectsPayload_eq_false_iff (p : HighNibblePolicy) (m : Message) :
    rejectsPayload p m = false ↔ ∀ k < 6, rejectsWord p (placeBytes m k) = false := by
  simp [rejectsPayload]

/-! ## The frame (R32, R51) -/

theorem wordBytes_length (w : Word) : (wordBytes w).length = 8 := rfl

theorem encFrame_length (c : Config) (r : Record) : (encFrame c r).length = 50 := rfl

theorem encFrame_start (c : Config) (r : Record) : (encFrame c r)[0]? = some c.start := rfl

theorem encFrame_stop (c : Config) (r : Record) : (encFrame c r)[49]? = some c.stop := rfl

/-- Byte `1 + 8*k + t` of the frame is nibble `7 - t` of word `k` (R32, R71). -/
theorem encFrame_payload (c : Config) (r : Record) (k t : Nat) (hk : k < 6) (ht : t < 8) :
    (encFrame c r)[1 + 8 * k + t]? = some (nibByte (word r k) (7 - t)) := by
  interval_cases k <;> interval_cases t <;> rfl

theorem placeBytes_encFrame (c : Config) (r : Record) (tail : List Byte) (k : Nat) (hk : k < 6) :
    placeBytes (encFrame c r ++ tail) k = wordBytes (word r k) := by
  interval_cases k <;> rfl

theorem payload_encFrame (c : Config) (r : Record) (tail : List Byte) :
    payload (encFrame c r ++ tail) = (wordList r).flatMap wordBytes := rfl

theorem frameOk_iff (c : Config) (m : Message) :
    frameOk c m = true ↔ 50 ≤ m.length ∧ m[0]? = some c.start ∧ m[49]? = some c.stop := by
  simp [frameOk]

/-! ## The bytes of a message by index -/

/-- Of a message of at least 50 bytes, the eight bytes of word `k` by index. -/
theorem placeBytes_eq_getD (m : Message) (k : Nat) (hm : 50 ≤ m.length) (hk : k < 6) :
    placeBytes m k = [m.getD (1 + 8 * k) 0, m.getD (2 + 8 * k) 0, m.getD (3 + 8 * k) 0, m.getD (4 + 8 * k) 0,
      m.getD (5 + 8 * k) 0, m.getD (6 + 8 * k) 0, m.getD (7 + 8 * k) 0, m.getD (8 + 8 * k) 0] := by
  apply List.ext_getElem
  · simp [placeBytes, nibsPerWord]; omega
  · intro i h1 h2
    simp only [List.length_cons, List.length_nil] at h2
    simp only [placeBytes, nibsPerWord, List.getElem_take, List.getElem_drop, List.getD_eq_getElem?_getD]
    interval_cases i <;>
      · simp only [List.getElem_cons_zero, List.getElem_cons_succ]
        rw [List.getElem?_eq_getElem (by omega), Option.getD_some]
        first | rfl | (congr 1; omega)

/-- A byte of the payload is a byte of the message at an index from 1 to 48. -/
theorem mem_payload_iff (m : Message) (b : Byte) (hm : 50 ≤ m.length) :
    b ∈ payload m ↔ ∃ j, 1 ≤ j ∧ j ≤ 48 ∧ m[j]? = some b := by
  constructor
  · intro h
    obtain ⟨i, hi, rfl⟩ := List.mem_iff_getElem.mp h
    have hi' : i < 48 := by simp [payload, payloadLen] at hi; omega
    refine ⟨i + 1, by omega, by omega, ?_⟩
    simp only [payload, List.getElem_take, List.getElem_drop]
    rw [List.getElem?_eq_getElem (by omega)]
    congr 2
    omega
  · rintro ⟨j, h1, h2, hj⟩
    obtain ⟨hlt, rfl⟩ := List.getElem?_eq_some_iff.mp hj
    refine List.mem_iff_getElem.mpr ⟨j - 1, by simp [payload, payloadLen]; omega, ?_⟩
    simp only [payload, List.getElem_take, List.getElem_drop]
    congr 1
    omega

/-- A byte of a place is a byte of the payload. -/
theorem mem_payload_of_mem_placeBytes (m : Message) (k : Nat) (hk : k < 6) (b : Byte) (hb : b ∈ placeBytes m k) :
    b ∈ payload m := by
  have hb2 : b ∈ (payload m).drop (8 * k) := by
    rw [placeBytes] at hb
    simp only [payload, List.drop_take, List.drop_drop]
    refine List.take_subset_take_left _ ?_ hb
    simp [payloadLen, nibsPerWord]; omega
  exact List.mem_of_mem_drop hb2

/-- With payload bytes at most `0x0F`, so are the bytes of every place. -/
theorem placeBytes_nibbles (m : Message) (hm : 50 ≤ m.length) (h : ∀ j b, 1 ≤ j → j ≤ 48 → m[j]? = some b → b ≤ 0x0F#8)
    (k : Nat) (hk : k < 6) : ∀ b ∈ placeBytes m k, aboveNibble b = false := by
  intro b hb
  obtain ⟨j, h1, h2, h3⟩ := (mem_payload_iff m b hm).1 (mem_payload_of_mem_placeBytes m k hk b hb)
  simpa [aboveNibble, BitVec.lt_def, BitVec.le_def] using h j b h1 h2 h3

/-! ## What `DEC` answers -/

/-- The byte of a nibble by shift and AND, the form of R8. -/
theorem nibByte_eq_shift_and (w : Word) (i : Nat) : nibByte w i = ((w >>> (4 * i)) &&& 0xF#32).setWidth 8 := by
  rw [← nib_eq_shift_and]
  apply BitVec.eq_of_toNat_eq
  simp [nibByte]

theorem aboveNibble_eq_false_iff (b : Byte) : aboveNibble b = false ↔ b ≤ 0x0F#8 := by
  simp [aboveNibble, BitVec.lt_def, BitVec.le_def]

/-- The reject (R87). -/
theorem decRecord_of_not_frameOk {c : Config} {m : Message} (h : frameOk c m = false) : decRecord c m = zero6 := by
  simp [decRecord, accepts, h]

/-- Word `k` of an accepted message (R88). -/
theorem word_decRecord (c : Config) (m : Message) (h : accepts c m = true) (k : Nat) (hk : k < 6) :
    word (decRecord c m) k = placeWord c.policy m k := by
  simp only [decRecord, h, if_true]
  interval_cases k <;> rfl

/-- Under `mask`, or with payload bytes at most `0x0F`, the three tests decide alone. -/
theorem accepts_of_frameOk {c : Config} {m : Message} (h : frameOk c m = true)
    (hp : c.policy = .mask ∨ ∀ j b, 1 ≤ j → j ≤ 48 → m[j]? = some b → b ≤ 0x0F#8) : accepts c m = true := by
  have : rejectsPayload c.policy m = false := by
    rw [rejectsPayload_eq_false_iff]
    intro k hk
    rcases hp with hp | hp
    · exact rejectsWord_of_total _ _ (.inl hp)
    · exact rejectsWord_of_nibbles _ _ (placeBytes_nibbles m ((frameOk_iff _ _).1 h).1 hp k hk)
  simp [accepts, h, this]

/-- What a byte of a frame is, by its index (R32). -/
theorem encFrame_getElem?_cases (c : Config) (r : Record) (j : Nat) (b : Byte) (h : (encFrame c r)[j]? = some b) :
   (j = 0 ∧ b = c.start) ∨ (j = 49 ∧ b = c.stop) ∨ (1 ≤ j ∧ j ≤ 48 ∧ ∃ k < 6, ∃ i < 8, j = 1 + 8 * k + (7 - i) ∧ b = nibByte (word r k) i) := by
  have hj : j < 50 := by
    have := (List.getElem?_eq_some_iff.1 h).1
    rwa [encFrame_length] at this
  rcases Nat.eq_zero_or_pos j with rfl | hpos
  · left; rw [encFrame_start] at h; simp_all
  · by_cases h49 : j = 49
    · subst h49; right; left; rw [encFrame_stop] at h; simp_all
    · right; right
      refine ⟨hpos, by omega, (j - 1) / 8, by omega, 7 - (j - 1) % 8, by omega, by omega, ?_⟩
      have e : j = 1 + 8 * ((j - 1) / 8) + (j - 1) % 8 := by omega
      rw [e, encFrame_payload _ _ _ _ (by omega) (by omega)] at h
      exact (Option.some.inj h).symm

end Sys2Proof.Machine
end

