-- ==== Sys2Proof/Laws/State.lean ====
section
/-! SUPPORT. One lemma per field and operation of Machine/Ops.lean, and the state after reset field by field. -/

namespace Sys2Proof.Machine

@[simp] theorem State.presentRecord_cfg (s : State) (r : Record) : (s.presentRecord r).cfg = s.cfg := rfl
@[simp] theorem State.presentRecord_recIn (s : State) (r : Record) : (s.presentRecord r).recIn = r := rfl
@[simp] theorem State.presentRecord_msgOut (s : State) (r : Record) : (s.presentRecord r).msgOut = s.msgOut := rfl
@[simp] theorem State.presentRecord_msgIn (s : State) (r : Record) : (s.presentRecord r).msgIn = s.msgIn := rfl
@[simp] theorem State.presentRecord_recOut (s : State) (r : Record) : (s.presentRecord r).recOut = s.recOut := rfl
@[simp] theorem State.presentRecord_encSer (s : State) (r : Record) : (s.presentRecord r).encSer = s.encSer := rfl
@[simp] theorem State.presentRecord_decSer (s : State) (r : Record) : (s.presentRecord r).decSer = s.decSer := rfl
@[simp] theorem State.presentRecord_inputs (s : State) (r : Record) : (s.presentRecord r).inputs = s.inputs := rfl

@[simp] theorem State.presentMessage_cfg (s : State) (m : Message) : (s.presentMessage m).cfg = s.cfg := rfl
@[simp] theorem State.presentMessage_recIn (s : State) (m : Message) : (s.presentMessage m).recIn = s.recIn := rfl
@[simp] theorem State.presentMessage_msgOut (s : State) (m : Message) : (s.presentMessage m).msgOut = s.msgOut := rfl
@[simp] theorem State.presentMessage_msgIn (s : State) (m : Message) : (s.presentMessage m).msgIn = m := rfl
@[simp] theorem State.presentMessage_recOut (s : State) (m : Message) : (s.presentMessage m).recOut = s.recOut := rfl
@[simp] theorem State.presentMessage_encSer (s : State) (m : Message) : (s.presentMessage m).encSer = s.encSer := rfl
@[simp] theorem State.presentMessage_decSer (s : State) (m : Message) : (s.presentMessage m).decSer = s.decSer := rfl
@[simp] theorem State.presentMessage_inputs (s : State) (m : Message) : (s.presentMessage m).inputs = s.inputs := rfl

@[simp] theorem State.driveMessage_cfg (s : State) (m : Message) : (s.driveMessage m).cfg = s.cfg := rfl
@[simp] theorem State.driveMessage_recIn (s : State) (m : Message) : (s.driveMessage m).recIn = s.recIn := rfl
@[simp] theorem State.driveMessage_msgOut (s : State) (m : Message) : (s.driveMessage m).msgOut = some m := rfl
@[simp] theorem State.driveMessage_msgIn (s : State) (m : Message) : (s.driveMessage m).msgIn = s.msgIn := rfl
@[simp] theorem State.driveMessage_recOut (s : State) (m : Message) : (s.driveMessage m).recOut = s.recOut := rfl
@[simp] theorem State.driveMessage_encSer (s : State) (m : Message) : (s.driveMessage m).encSer = s.encSer := rfl
@[simp] theorem State.driveMessage_decSer (s : State) (m : Message) : (s.driveMessage m).decSer = s.decSer := rfl
@[simp] theorem State.driveMessage_inputs (s : State) (m : Message) : (s.driveMessage m).inputs = s.inputs := rfl

@[simp] theorem State.driveRecord_cfg (s : State) (r : Record) : (s.driveRecord r).cfg = s.cfg := rfl
@[simp] theorem State.driveRecord_recIn (s : State) (r : Record) : (s.driveRecord r).recIn = s.recIn := rfl
@[simp] theorem State.driveRecord_msgOut (s : State) (r : Record) : (s.driveRecord r).msgOut = s.msgOut := rfl
@[simp] theorem State.driveRecord_msgIn (s : State) (r : Record) : (s.driveRecord r).msgIn = s.msgIn := rfl
@[simp] theorem State.driveRecord_recOut (s : State) (r : Record) : (s.driveRecord r).recOut = some r := rfl
@[simp] theorem State.driveRecord_encSer (s : State) (r : Record) : (s.driveRecord r).encSer = s.encSer := rfl
@[simp] theorem State.driveRecord_decSer (s : State) (r : Record) : (s.driveRecord r).decSer = s.decSer := rfl
@[simp] theorem State.driveRecord_inputs (s : State) (r : Record) : (s.driveRecord r).inputs = s.inputs := rfl

@[simp] theorem State.clearMessage_cfg (s : State) : s.clearMessage.cfg = s.cfg := rfl
@[simp] theorem State.clearMessage_recIn (s : State) : s.clearMessage.recIn = s.recIn := rfl
@[simp] theorem State.clearMessage_msgOut (s : State) : s.clearMessage.msgOut = none := rfl
@[simp] theorem State.clearMessage_msgIn (s : State) : s.clearMessage.msgIn = s.msgIn := rfl
@[simp] theorem State.clearMessage_recOut (s : State) : s.clearMessage.recOut = s.recOut := rfl
@[simp] theorem State.clearMessage_encSer (s : State) : s.clearMessage.encSer = s.encSer := rfl
@[simp] theorem State.clearMessage_decSer (s : State) : s.clearMessage.decSer = s.decSer := rfl
@[simp] theorem State.clearMessage_inputs (s : State) : s.clearMessage.inputs = s.inputs := rfl

@[simp] theorem State.clearRecord_cfg (s : State) : s.clearRecord.cfg = s.cfg := rfl
@[simp] theorem State.clearRecord_recIn (s : State) : s.clearRecord.recIn = s.recIn := rfl
@[simp] theorem State.clearRecord_msgOut (s : State) : s.clearRecord.msgOut = s.msgOut := rfl
@[simp] theorem State.clearRecord_msgIn (s : State) : s.clearRecord.msgIn = s.msgIn := rfl
@[simp] theorem State.clearRecord_recOut (s : State) : s.clearRecord.recOut = none := rfl
@[simp] theorem State.clearRecord_encSer (s : State) : s.clearRecord.encSer = s.encSer := rfl
@[simp] theorem State.clearRecord_decSer (s : State) : s.clearRecord.decSer = s.decSer := rfl
@[simp] theorem State.clearRecord_inputs (s : State) : s.clearRecord.inputs = s.inputs := rfl

@[simp] theorem State.withdrawRecord_cfg (s : State) : s.withdrawRecord.cfg = s.cfg := rfl
@[simp] theorem State.withdrawRecord_recIn (s : State) : s.withdrawRecord.recIn = unpresentedRecord := rfl
@[simp] theorem State.withdrawRecord_msgOut (s : State) : s.withdrawRecord.msgOut = s.msgOut := rfl
@[simp] theorem State.withdrawRecord_msgIn (s : State) : s.withdrawRecord.msgIn = s.msgIn := rfl
@[simp] theorem State.withdrawRecord_recOut (s : State) : s.withdrawRecord.recOut = s.recOut := rfl
@[simp] theorem State.withdrawRecord_encSer (s : State) : s.withdrawRecord.encSer = s.encSer := rfl
@[simp] theorem State.withdrawRecord_decSer (s : State) : s.withdrawRecord.decSer = s.decSer := rfl
@[simp] theorem State.withdrawRecord_inputs (s : State) : s.withdrawRecord.inputs = s.inputs := rfl

@[simp] theorem State.withdrawMessage_cfg (s : State) : s.withdrawMessage.cfg = s.cfg := rfl
@[simp] theorem State.withdrawMessage_recIn (s : State) : s.withdrawMessage.recIn = s.recIn := rfl
@[simp] theorem State.withdrawMessage_msgOut (s : State) : s.withdrawMessage.msgOut = s.msgOut := rfl
@[simp] theorem State.withdrawMessage_msgIn (s : State) : s.withdrawMessage.msgIn = unpresentedMessage := rfl
@[simp] theorem State.withdrawMessage_recOut (s : State) : s.withdrawMessage.recOut = s.recOut := rfl
@[simp] theorem State.withdrawMessage_encSer (s : State) : s.withdrawMessage.encSer = s.encSer := rfl
@[simp] theorem State.withdrawMessage_decSer (s : State) : s.withdrawMessage.decSer = s.decSer := rfl
@[simp] theorem State.withdrawMessage_inputs (s : State) : s.withdrawMessage.inputs = s.inputs := rfl

@[simp] theorem State.watchRecord_cfg (s : State) (r : Record) : (s.watchRecord r).cfg = s.cfg := by
  simp only [State.watchRecord]; split_ifs <;> rfl
@[simp] theorem State.watchRecord_recIn (s : State) (r : Record) : (s.watchRecord r).recIn = s.recIn := by
  simp only [State.watchRecord]; split_ifs <;> rfl
@[simp] theorem State.watchRecord_msgOut (s : State) (r : Record) : (s.watchRecord r).msgOut = s.msgOut := by
  simp only [State.watchRecord]; split_ifs <;> rfl
@[simp] theorem State.watchRecord_msgIn (s : State) (r : Record) : (s.watchRecord r).msgIn = s.msgIn := by
  simp only [State.watchRecord]; split_ifs <;> rfl
@[simp] theorem State.watchRecord_recOut (s : State) (r : Record) : (s.watchRecord r).recOut = s.recOut := by
  simp only [State.watchRecord]; split_ifs <;> rfl
/-- What `watchRecord` does: in the middle of an emission, and with another record on `REC_IN`, it notes the change. -/
theorem State.watchRecord_encSer (s : State) (r : Record) :
    (s.watchRecord r).encSer =
      if s.encSer.pos = 0 then s.encSer else if s.recIn = r then s.encSer else { s.encSer with changed := true } := by
  simp only [State.watchRecord]; split_ifs <;> rfl
@[simp] theorem State.watchRecord_encSer_pos (s : State) (r : Record) : (s.watchRecord r).encSer.pos = s.encSer.pos := by
  rw [State.watchRecord_encSer]; split_ifs <;> rfl
@[simp] theorem State.watchRecord_encSer_emitted (s : State) (r : Record) :
    (s.watchRecord r).encSer.emitted = s.encSer.emitted := by
  rw [State.watchRecord_encSer]; split_ifs <;> rfl
@[simp] theorem State.watchRecord_decSer (s : State) (r : Record) : (s.watchRecord r).decSer = s.decSer := by
  simp only [State.watchRecord]; split_ifs <;> rfl
@[simp] theorem State.watchRecord_inputs (s : State) (r : Record) : (s.watchRecord r).inputs = s.inputs := by
  simp only [State.watchRecord]; split_ifs <;> rfl
@[simp] theorem State.watchRecord_self (s : State) : s.watchRecord s.recIn = s := by simp [State.watchRecord]
theorem State.watchRecord_of_boundary (s : State) (r : Record) (h : s.encSer.pos = 0) : s.watchRecord r = s := by
  simp [State.watchRecord, h]

@[simp] theorem State.setEncSer_cfg (s : State) (e : SerialEncoder) : (s.setEncSer e).cfg = s.cfg := rfl
@[simp] theorem State.setEncSer_recIn (s : State) (e : SerialEncoder) : (s.setEncSer e).recIn = s.recIn := rfl
@[simp] theorem State.setEncSer_msgOut (s : State) (e : SerialEncoder) : (s.setEncSer e).msgOut = s.msgOut := rfl
@[simp] theorem State.setEncSer_msgIn (s : State) (e : SerialEncoder) : (s.setEncSer e).msgIn = s.msgIn := rfl
@[simp] theorem State.setEncSer_recOut (s : State) (e : SerialEncoder) : (s.setEncSer e).recOut = s.recOut := rfl
@[simp] theorem State.setEncSer_encSer (s : State) (e : SerialEncoder) : (s.setEncSer e).encSer = e := rfl
@[simp] theorem State.setEncSer_decSer (s : State) (e : SerialEncoder) : (s.setEncSer e).decSer = s.decSer := rfl
@[simp] theorem State.setEncSer_inputs (s : State) (e : SerialEncoder) : (s.setEncSer e).inputs = s.inputs := rfl

@[simp] theorem State.setDecSer_cfg (s : State) (d : SerialDecoder) : (s.setDecSer d).cfg = s.cfg := rfl
@[simp] theorem State.setDecSer_recIn (s : State) (d : SerialDecoder) : (s.setDecSer d).recIn = s.recIn := rfl
@[simp] theorem State.setDecSer_msgOut (s : State) (d : SerialDecoder) : (s.setDecSer d).msgOut = s.msgOut := rfl
@[simp] theorem State.setDecSer_msgIn (s : State) (d : SerialDecoder) : (s.setDecSer d).msgIn = s.msgIn := rfl
@[simp] theorem State.setDecSer_recOut (s : State) (d : SerialDecoder) : (s.setDecSer d).recOut = s.recOut := rfl
@[simp] theorem State.setDecSer_encSer (s : State) (d : SerialDecoder) : (s.setDecSer d).encSer = s.encSer := rfl
@[simp] theorem State.setDecSer_decSer (s : State) (d : SerialDecoder) : (s.setDecSer d).decSer = d := rfl
@[simp] theorem State.setDecSer_inputs (s : State) (d : SerialDecoder) : (s.setDecSer d).inputs = s.inputs := rfl

@[simp] theorem State.setInputs_cfg (s : State) (es : List Event) : (s.setInputs es).cfg = s.cfg := rfl
@[simp] theorem State.setInputs_recIn (s : State) (es : List Event) : (s.setInputs es).recIn = s.recIn := rfl
@[simp] theorem State.setInputs_msgOut (s : State) (es : List Event) : (s.setInputs es).msgOut = s.msgOut := rfl
@[simp] theorem State.setInputs_msgIn (s : State) (es : List Event) : (s.setInputs es).msgIn = s.msgIn := rfl
@[simp] theorem State.setInputs_recOut (s : State) (es : List Event) : (s.setInputs es).recOut = s.recOut := rfl
@[simp] theorem State.setInputs_encSer (s : State) (es : List Event) : (s.setInputs es).encSer = s.encSer := rfl
@[simp] theorem State.setInputs_decSer (s : State) (es : List Event) : (s.setInputs es).decSer = s.decSer := rfl
@[simp] theorem State.setInputs_inputs (s : State) (es : List Event) : (s.setInputs es).inputs = es := rfl

@[simp] theorem State.resetWith_cfg (c : Config) : (State.resetWith c).cfg = c := rfl
@[simp] theorem State.resetWith_recIn (c : Config) : (State.resetWith c).recIn = unpresentedRecord := rfl
@[simp] theorem State.resetWith_msgOut (c : Config) : (State.resetWith c).msgOut = none := rfl
@[simp] theorem State.resetWith_msgIn (c : Config) : (State.resetWith c).msgIn = unpresentedMessage := rfl
@[simp] theorem State.resetWith_recOut (c : Config) : (State.resetWith c).recOut = none := rfl
@[simp] theorem State.resetWith_encSer (c : Config) : (State.resetWith c).encSer = .cleared := rfl
@[simp] theorem State.resetWith_decSer (c : Config) : (State.resetWith c).decSer = .cleared := rfl
@[simp] theorem State.resetWith_inputs (c : Config) : (State.resetWith c).inputs = [] := rfl

end Sys2Proof.Machine
end

