-- ==== Sys2Proof/Laws/Exec.lean ====
section
/-! SUPPORT. What an operation and a step can do, once each; proofs cite these instead of unfolding exec and step. -/

namespace Sys2Proof.Machine

/-- `ENC` as an equation: it always answers a next state, and changes its two ports alone. -/
theorem exec_enc (r : Record) (s : State) :
    exec (.enc r) s = .next { s with recIn := r, msgOut := some (encFrame s.cfg r) } := rfl

/-- `DEC` as an equation: it always answers a next state, and changes its two ports alone. -/
theorem exec_dec (m : Message) (s : State) :
    exec (.dec m) s = .next { s with msgIn := m, recOut := some (decRecord s.cfg m) } := rfl

theorem step_idle (s : State) (h : s.inputs = []) : step s = .next s := by simp only [step, h]

theorem step_event (s : State) (e : Event) (rest : List Event) (h : s.inputs = e :: rest) :
    step s = runEvent e (s.setInputs rest) := by simp only [step, h]

@[simp] theorem mapNext_next (f : State → State) (s : State) : mapNext f (.next s) = .next (f s) := rfl

/-- Everything an act of the environment can do if it answers a next state. -/
theorem runEvent_next_cases {e : Event} {s t : State} (h : runEvent e s = .next t) :
    (∃ r, e = .request (.enc r) ∧ t = ((s.presentRecord r).driveMessage (encFrame s.cfg r)).watchRecord s.recIn) ∨
    (∃ m, e = .request (.dec m) ∧ t = (s.presentMessage m).driveRecord (decRecord s.cfg m)) ∨
    (∃ r, e = .presentRecord r ∧ t = (s.presentRecord r).watchRecord s.recIn) ∨
    (e = .emitByte ∧ s.encSer.changed = false ∧ t = emitOf s) ∨
    (∃ b, e = .receiveByte b ∧ t = s.setDecSer (s.decSer.onByte s.cfg b)) ∨
    (e = .endOfMessage ∧ t = (s.driveRecord s.decSer.result).setDecSer .cleared) ∨
    (e = .takeMessage ∧ (∃ m, s.msgOut = some m) ∧ t = s.clearMessage) ∨
    (e = .takeRecord ∧ (∃ r, s.recOut = some r) ∧ t = s.clearRecord) ∨
    (e = .reset ∧ t = (State.resetWith s.cfg).setInputs s.inputs) := by
  cases e with
  | request i =>
    cases i with
    | enc r => cases h; exact .inl ⟨r, rfl, rfl⟩
    | dec m =>
      cases h
      exact .inr (.inl ⟨m, rfl, State.watchRecord_self ((s.presentMessage m).driveRecord (decRecord s.cfg m))⟩)
  | presentRecord r => cases h; exact .inr (.inr (.inl ⟨r, rfl, rfl⟩))
  | emitByte =>
    simp only [runEvent, emitByte] at h
    split at h
    · cases h
    · rename_i hc
      cases h
      exact .inr (.inr (.inr (.inl ⟨rfl, by simpa using hc, rfl⟩)))
  | receiveByte b => cases h; exact .inr (.inr (.inr (.inr (.inl ⟨b, rfl, rfl⟩))))
  | endOfMessage => cases h; exact .inr (.inr (.inr (.inr (.inr (.inl ⟨rfl, rfl⟩)))))
  | takeMessage =>
    simp only [runEvent, takeMessage] at h
    split at h
    · cases h
    · rename_i m hm
      cases h
      exact .inr (.inr (.inr (.inr (.inr (.inr (.inl ⟨rfl, ⟨m, hm⟩, rfl⟩))))))
  | takeRecord =>
    simp only [runEvent, takeRecord] at h
    split at h
    · cases h
    · rename_i r hr
      cases h
      exact .inr (.inr (.inr (.inr (.inr (.inr (.inr (.inl ⟨rfl, ⟨r, hr⟩, rfl⟩)))))))
  | reset => cases h; exact .inr (.inr (.inr (.inr (.inr (.inr (.inr (.inr ⟨rfl, rfl⟩)))))))

end Sys2Proof.Machine
end

