-- ==== Sys2Proof/Laws/PerInstr.lean ====
section
/-! SUPPORT. Statements made per operation. UnitSelects: what a unit is asked for is one of its own operations (R60), whatever
the bytes are. -/

namespace Sys2Proof.Laws.UnitSelects

/-- An image read for a unit that answers this operation was read for the operation's own unit. -/
def Statement (i : Instr) : Prop := ∀ c u bs, decodeFor c u bs = .ok i → u = i.unit

theorem enc (r : Record) : Statement (.enc r) := by
  intro c u bs h
  cases u with
  | encoder => rfl
  | decoder =>
    simp only [decodeFor] at h
    split at h <;> cases h

theorem dec (m : Message) : Statement (.dec m) := by
  intro c u bs h
  cases u with
  | decoder => rfl
  | encoder =>
    simp only [decodeFor] at h
    split at h
    · cases h
    · split at h
      · cases h
      · split at h <;> cases h

end Sys2Proof.Laws.UnitSelects
end

