-- ==== Sys2Proof/Laws/Serial.lean ====
section
/-! SUPPORT. The byte-at-a-time forms, one lemma per function. -/

namespace Sys2Proof.Machine

/-- `enc_byte` is the frame by index (R78). -/
theorem encFrame_getElem?_eq_encByte (c : Config) (r : Record) (p : Nat) (hp : p < 50) : (encFrame c r)[p]? = some (encByte c r p) := by
  interval_cases p <;> rfl

/-- A byte before the last: one position on (R78). -/
theorem emitOf_of_ne_last (s : State) (h : s.encSer.pos ≠ 49) :
    emitOf s = { s with encSer := { s.encSer with
      pos := s.encSer.pos + 1
      emitted := s.encSer.emitted ++ [encByte s.cfg s.recIn s.encSer.pos] } } := by
  simp only [emitOf, SerialEncoder.advance, State.setEncSer, endIdx, if_neg h]

/-- The last byte: the message stands on `MSG_OUT`, and the registers are those of a message boundary (R78). -/
theorem emitOf_last (s : State) (h : s.encSer.pos = 49) :
    emitOf s = { s with msgOut := some (s.encSer.emitted ++ [s.cfg.stop]), encSer := .cleared } := by
  simp only [emitOf, SerialEncoder.advance, State.setEncSer, State.driveMessage, h, endIdx, if_true]
  rfl

/-- `pos` saturates at 50 (R97). -/
theorem SerialDecoder.onByte_pos (c : Config) (d : SerialDecoder) (b : Byte) : (d.onByte c b).pos = if d.pos < 50 then d.pos + 1 else d.pos := by
  simp only [SerialDecoder.onByte]
  split_ifs <;> rfl

/-- Eight bytes of a word place: the word is written, and the accumulator and the note of the bytes are cleared (R97). -/
theorem SerialDecoder.onByte_place (c : Config) (k : Nat) (hk : k < 6) (ok : Bool) (out : Record) (b0 b1 b2 b3 b4 b5 b6 b7 : Byte) :
    [b0, b1, b2, b3, b4, b5, b6, b7].foldl (SerialDecoder.onByte c)
        { pos := 1 + 8 * k, ok := ok, acc := 0, out := out, place := [] } =
      { pos := 9 + 8 * k
        ok := ok && !rejectsWord c.policy [b0, b1, b2, b3, b4, b5, b6, b7]
        acc := 0
        out := setWord out k (assemble c.policy [b0, b1, b2, b3, b4, b5, b6, b7])
        place := [] } := by
  interval_cases k <;>
    simp [SerialDecoder.onByte, assemble, accumulateAll, rejectsWord, Bool.and_assoc, startIdx, payloadLen, frameLen,
      nibsPerWord]

/-- A message of at least 50 bytes is byte 0, six places, byte 49 and the rest (R32). -/
theorem message_places (m : Message) (hm : 50 ≤ m.length) : ∃ b0 : Byte, ∃ e : Byte, ∃ rest, m = b0 :: (placeBytes m 0 ++ (placeBytes m 1 ++ (placeBytes m 2 ++ (placeBytes m 3 ++ (placeBytes m 4 ++ (placeBytes m 5 ++ e :: rest)))))) ∧ m[0]? = some b0 ∧ m[49]? = some e := by
  have key : ∀ k, m.drop (1 + 8 * k) = placeBytes m k ++ m.drop (1 + 8 * (k + 1)) := by
    intro k
    have := List.take_append_drop 8 (m.drop (1 + 8 * k))
    rw [List.drop_drop] at this
    exact this.symm
  refine ⟨m[0], m[49], m.drop 50, ?_, List.getElem?_eq_getElem (by omega), List.getElem?_eq_getElem (by omega)⟩
  have h49 : m.drop (1 + 8 * (5 + 1)) = m[49] :: m.drop 50 := List.drop_eq_getElem_cons (by omega)
  have h0 : m = m[0] :: m.drop (1 + 8 * 0) := by
    have := List.drop_eq_getElem_cons (l := m) (i := 0) (by omega)
    simpa using this
  rw [← h49, ← key 5, ← key 4, ← key 3, ← key 2, ← key 1, ← key 0]
  exact h0

end Sys2Proof.Machine
end

