-- ==== Sys2Proof/Laws/Session.lean ====
section
/-! SUPPORT. What a session's operations do, as equations; proofs cite these instead of unfolding `Session.step`. -/

namespace Sys2Proof.Machine

/-- Examining a message always answers a next state (R122), and leaves nothing on the ports (R137). -/
theorem Session.examine_eq (s : Session) (key : Word) (m : Message) (ch : Channel) :
    s.examine key m ch = .next { s with
      codec := { s.codec with msgIn := unpresentedMessage, recOut := none }
      key := if (decRecord s.codec.cfg m).w0 = key then none else some key
      channel := ch } := rfl

/-- Sending a request always answers a next state (R120), and leaves nothing on the ports (R137). -/
theorem Session.send_eq (s : Session) (q : Request) (rest : List Request) :
    s.send q rest = .next { s with
      codec := { s.codec with recIn := unpresentedRecord, msgOut := none }
      phase := q.phase
      key := if q.awaited then some q.record.w0 else none
      todo := rest
      channel := s.channel.send (encFrame s.codec.cfg q.record) } := rfl

/-- The decoder answers the empty message with `ZERO6` (R96). -/
theorem decRecord_nil (c : Config) : decRecord c [] = zero6 := rfl

theorem Session.step_awaiting (s : Session) (key : Word) (h : s.key = some key) : s.step = s.wait key := by
  simp only [Session.step, h]

theorem Session.step_finished (s : Session) (h : s.key = none) (h' : s.todo = []) : s.step = .next s.finish := by
  simp only [Session.step, h, h']

theorem Session.step_sending (s : Session) (q : Request) (rest : List Request) (h : s.key = none) (h' : s.todo = q :: rest) :
    s.step = s.send q rest := by
  simp only [Session.step, h, h']

theorem Session.wait_message (s : Session) (key : Word) (m : Message) (rest : List (Option Message))
    (h : s.channel.inbound = some m :: rest) : s.wait key = s.examine key m { s.channel with inbound := rest } := by
  simp only [Session.wait, Channel.receive, h]

/-- Everything a step of a session can do: it always answers a next state, and it is one of a poll that finds nothing, an
examined message (the empty one for `none` on a zero key), the end, or a request sent. -/
theorem Session.step_cases (s : Session) :
    (∃ key ch, s.key = some key ∧ ch.owned = s.channel.owned ∧ ch.sent = s.channel.sent ∧
      ch.inbound = s.channel.inbound.tail ∧ s.channel.inbound.head?.join = none ∧ (key = 0 → s.decodesNone = false) ∧
      s.step = .next { s with channel := ch }) ∨
    (∃ key m ch, s.key = some key ∧ ch.owned = s.channel.owned ∧ ch.sent = s.channel.sent ∧
      ch.inbound = s.channel.inbound.tail ∧
      (s.channel.inbound.head?.join = some m ∨
        (s.channel.inbound.head?.join = none ∧ m = [] ∧ key = 0 ∧ s.decodesNone = true)) ∧
      s.step = s.examine key m ch) ∨
    (s.key = none ∧ s.todo = [] ∧ s.step = .next s.finish) ∨
    (∃ q rest, s.key = none ∧ s.todo = q :: rest ∧ s.step = s.send q rest) := by
  cases hk : s.key with
  | none =>
    cases ht : s.todo with
    | nil => exact .inr (.inr (.inl ⟨rfl, rfl, s.step_finished hk ht⟩))
    | cons q rest => exact .inr (.inr (.inr ⟨q, rest, rfl, rfl, s.step_sending q rest hk ht⟩))
  | some key =>
    rw [s.step_awaiting key hk]
    rcases hi : s.channel.inbound with _ | ⟨a, rest⟩
    · by_cases hz : key = 0 ∧ s.decodesNone = true
      · exact .inr (.inl ⟨key, [], s.channel, rfl, rfl, rfl, hi, .inr ⟨rfl, rfl, hz⟩, by
          simp only [Session.wait, Channel.receive, hi, if_pos hz]⟩)
      · exact .inl ⟨key, s.channel, rfl, rfl, rfl, hi, rfl, by simpa using hz, by
          simp only [Session.wait, Channel.receive, hi, if_neg hz, hk]⟩
    · cases a with
      | some m =>
        exact .inr (.inl ⟨key, m, { s.channel with inbound := rest }, rfl, rfl, rfl, rfl, .inl rfl,
          s.wait_message key m rest hi⟩)
      | none =>
        by_cases hz : key = 0 ∧ s.decodesNone = true
        · exact .inr (.inl ⟨key, [], { s.channel with inbound := rest }, rfl, rfl, rfl, rfl, .inr ⟨rfl, rfl, hz⟩, by
            simp only [Session.wait, Channel.receive, hi, if_pos hz]⟩)
        · exact .inl ⟨key, { s.channel with inbound := rest }, rfl, rfl, rfl, rfl, rfl, by simpa using hz, by
            simp only [Session.wait, Channel.receive, hi, if_neg hz, hk]⟩

end Sys2Proof.Machine
end

