-- ==== Sys2Proof/Laws/Table.lean ====
section
/-! SUPPORT. The table's patterns, one lemma per function of Decode.lean. -/

namespace Sys2Proof.Machine

/-- The tests common to both rows are the three of R86. -/
theorem rowError_none_iff (c : Config) (bs : List Byte) : rowError c bs = none ↔ 50 ≤ bs.length ∧ bs[0]? = some c.start ∧ bs[49]? = some c.stop := by
  simp only [rowError]
  by_cases h : bs.length < 50
  · simp [h]
  · have e0 : bs.getD 0 0 = bs[0] := List.getD_eq_getElem _ _ (by omega)
    have e49 : bs.getD 49 0 = bs[49] := List.getD_eq_getElem _ _ (by omega)
    rw [if_neg h, e0, e49, List.getElem?_eq_getElem (show 0 < bs.length by omega), List.getElem?_eq_getElem (show 49 < bs.length by omega)]
    have hlen : 50 ≤ bs.length := by omega
    by_cases h0 : bs[0] = c.start <;> by_cases h1 : bs[49] = c.stop <;> simp [h0, h1, hlen]

/-- The pattern of R61 places the nibbles as R53 does. -/
theorem fieldBytes_eq_wordBytes (w : Word) : fieldBytes w = wordBytes w := by
  have : ∀ i, (0#4 ++ w.extractLsb' (4 * i) 4 : BitVec 8) = nibByte w i := by
    intro i
    apply BitVec.eq_of_toNat_eq
    rw [nibByte_toNat, ← nib_toNat, nib, BitVec.toNat_append]
    simp
  simp only [fieldBytes, wordBytes, List.map_cons, List.map_nil]
  rw [← this 7, ← this 6, ← this 5, ← this 4, ← this 3, ← this 2, ← this 1, ← this 0]

/-- One byte of a row. -/
theorem fitsRow_cons (p : BytePattern) (ps : List BytePattern) (b : Byte) (bs : List Byte) : fitsRow (p :: ps) (b :: bs) = ((b &&& p.mask) == p.value && fitsRow ps bs) := rfl

/-- A run of equal byte patterns. -/
theorem fitsRow_replicate (mask value : Byte) (tailp : List BytePattern) : ∀ (n : Nat) (bs : List Byte), n ≤ bs.length → fitsRow (List.replicate n ⟨mask, value⟩ ++ tailp) bs = ((bs.take n).all (fun b => (b &&& mask) == value) && fitsRow tailp (bs.drop n)) := by
  intro n
  induction n with
  | zero => intro bs _; simp
  | succ n ih =>
    intro bs h
    cases bs with
    | nil => simp at h
    | cons b bs =>
      simp only [List.replicate_succ, List.cons_append, fitsRow_cons, List.take_succ_cons, List.all_cons, List.drop_succ_cons, Bool.and_assoc]
      rw [ih bs (by simpa using h)]

/-- A letter is the low nibble. -/
theorem letterAt_toNat (bs : List Byte) (j : Nat) : (letterAt bs j).toNat = (bs.getD j 0).toNat % 16 := by
  simp [letterAt, BitVec.extractLsb'_toNat]

/-- A field of the pattern as a number. -/
theorem fieldWord_toNat (bs : List Byte) (k : Nat) : (fieldWord bs k).toNat = ∑ t ∈ Finset.range 8, (bs.getD (1 + 8 * k + t) 0).toNat % 16 * 16 ^ (7 - t) := by
  have hl : ∀ j, (letterAt bs j).toNat < 16 := fun j => (letterAt bs j).isLt
  have app : ∀ {n : Nat} (x : BitVec n) (y : BitVec 4), (x ++ y).toNat = x.toNat * 16 + y.toNat := by
    intro n x y
    rw [BitVec.toNat_append, ← Nat.shiftLeft_add_eq_or_of_lt y.isLt, Nat.shiftLeft_eq]
  simp only [fieldWord]
  have key : (letterAt bs (8 * k + 1) ++ letterAt bs (8 * k + 2) ++ letterAt bs (8 * k + 3) ++ letterAt bs (8 * k + 4) ++
    letterAt bs (8 * k + 5) ++ letterAt bs (8 * k + 6) ++ letterAt bs (8 * k + 7) ++ letterAt bs (8 * k + 8)).toNat = (((((((letterAt bs (8 * k + 1)).toNat * 16 + (letterAt bs (8 * k + 2)).toNat) * 16 + (letterAt bs (8 * k + 3)).toNat) * 16 + (letterAt bs (8 * k + 4)).toNat) * 16 + (letterAt bs (8 * k + 5)).toNat) * 16 + (letterAt bs (8 * k + 6)).toNat) * 16 + (letterAt bs (8 * k + 7)).toNat) * 16 + (letterAt bs (8 * k + 8)).toNat := by
    rw [app, app, app, app, app, app, app]
  refine key.trans ?_
  simp only [letterAt_toNat, Finset.sum_range_succ, Finset.sum_range_zero]
  simp only [show 1 + 8 * k + 0 = 8 * k + 1 by omega, show 1 + 8 * k + 1 = 8 * k + 2 by omega, show 1 + 8 * k + 2 = 8 * k + 3 by omega, show 1 + 8 * k + 3 = 8 * k + 4 by omega, show 1 + 8 * k + 4 = 8 * k + 5 by omega, show 1 + 8 * k + 5 = 8 * k + 6 by omega, show 1 + 8 * k + 6 = 8 * k + 7 by omega, show 1 + 8 * k + 7 = 8 * k + 8 by omega]
  omega

end Sys2Proof.Machine
end

