-- ==== Sys2Proof/Tests/Slice0.lean ====
section
/-! SUPPORT. The model's own tests. Expected results are those of spec/95_test_vectors.md (V<n>, P<n>) and of the pattern of
30_encoding.md R61, written out here; each witness meets the hypotheses of the statement it is named after. -/

namespace Sys2Proof.Tests

open Sys2Proof Sys2Proof.Machine

/-! ## Values of the vectors -/

/-- The record of V5. -/
def r5 : Record := ⟨0xDEADBEEF, 0x01234567, 0x89ABCDEF, 0xFEDCBA98, 0x76543210, 0xCAFEF00D⟩

/-- Bytes 1 to 48 of the frame of V5. -/
def p5 : List Byte :=
  [0x0D, 0x0E, 0x0A, 0x0D, 0x0B, 0x0E, 0x0E, 0x0F] ++ [0x00, 0x01, 0x02, 0x03, 0x04, 0x05, 0x06, 0x07] ++
  [0x08, 0x09, 0x0A, 0x0B, 0x0C, 0x0D, 0x0E, 0x0F] ++ [0x0F, 0x0E, 0x0D, 0x0C, 0x0B, 0x0A, 0x09, 0x08] ++
  [0x07, 0x06, 0x05, 0x04, 0x03, 0x02, 0x01, 0x00] ++ [0x0C, 0x0A, 0x0F, 0x0E, 0x0F, 0x00, 0x00, 0x0D]

/-- The frame of V5. -/
def f5 : Message := [0xF0] ++ p5 ++ [0xF7]

/-- The message of V31. -/
def m31 : Message := [0xF0, 0x01, 0x32, 0x03, 0x04, 0x05, 0x06, 0x07, 0xF8] ++ List.replicate 40 0x00 ++ [0xF7]

/-- The reset state with another policy. -/
def withPolicy (p : HighNibblePolicy) : State := .resetWith { defaultConfig with policy := p }

/-- The reset state with given inputs. -/
def asked (es : List Event) : State := State.reset.setInputs es

/-- `MSG_OUT` after an outcome. -/
def msgAfter (o : Host.Outcome State Fault Refusal) : Option Message := (nextOf o).bind State.msgOut

/-- `REC_OUT` after an outcome. -/
def recAfter (o : Host.Outcome State Fault Refusal) : Option Record := (nextOf o).bind State.recOut

/-! ## ENC and DEC on vectors -/

theorem test_enc_V5 : msgAfter (exec (.enc r5) .reset) = some f5 := by decide

/-- V9: `START = END = 0xF0`. -/
theorem test_enc_V9_equal_markers :
    msgAfter (exec (.enc ⟨0x12345678, 0, 0, 0, 0, 0⟩) (.resetWith { defaultConfig with stop := 0xF0 })) =
      some ([0xF0, 0x01, 0x02, 0x03, 0x04, 0x05, 0x06, 0x07, 0x08] ++ List.replicate 40 0x00 ++ [0xF0]) := by decide

/-- V24 (bytes past the frame are ignored) and V25 (the marker is tested at index 49). -/
theorem test_dec_V24_V25 :
    recAfter (exec (.dec (f5 ++ [0x00, 0xF7, 0x55])) .reset) = some r5 ∧
    recAfter (exec (.dec ([0xF0] ++ p5 ++ [0x00, 0xF7])) .reset) = some zero6 := by decide

/-- V31 under each named policy. -/
theorem test_dec_V31_policies :
    recAfter (exec (.dec m31) (withPolicy .mask)) = some ⟨0x12345678, 0, 0, 0, 0, 0⟩ ∧
    recAfter (exec (.dec m31) (withPolicy .orWrap)) = some ⟨0x323456F8, 0, 0, 0, 0, 0⟩ ∧
    recAfter (exec (.dec m31) (withPolicy .addWrap)) = some ⟨0x42345768, 0, 0, 0, 0, 0⟩ ∧
    recAfter (exec (.dec m31) (withPolicy .reject)) = some zero6 := by decide

/-! ## The byte-at-a-time forms, one step each -/

/-- R78: in the middle of V5 the next byte is `enc_byte(W, 37)`, which is 03. -/
theorem test_emitByte_V5_index37 :
    ((nextOf (emitByte { State.reset with recIn := r5, encSer := ⟨37, false, []⟩ })).map State.encSer) =
      some ⟨38, false, [0x03]⟩ := by decide

/-- R97: the eighth payload byte writes word 0 and clears the accumulator. -/
theorem test_receiveByte_writes_word0 :
    ((nextOf (receiveByte 0x08 { State.reset with decSer := ⟨8, true, 0x01234567, zero6, [1, 2, 3, 4, 5, 6, 7]⟩ })).map State.decSer) =
      some ⟨9, true, 0, ⟨0x12345678, 0, 0, 0, 0, 0⟩, []⟩ := by decide

/-! ## Decoding the table's patterns -/

/-- The row ENC: the frame of V5, written out, is `ENC` of the record of V5. -/
theorem test_decode_enc_row :
    decodeTableWord 400
        0xF00D0E0A0D0B0E0E0F000102030405060708090A0B0C0D0E0F0F0E0D0C0B0A09080706050403020100 =
      none ∧
    decodeTableWord 400
        0xF00D0E0A0D0B0E0E0F000102030405060708090A0B0C0D0E0F0F0E0D0C0B0A090807060504030201000C0A0F0E0F00000DF7 =
      some (.enc r5) := by decide

/-- The row DEC: the message of V31, written out, fits it and not the row ENC. -/
theorem test_decode_dec_row :
    decodeTableWord 400
        0xF001320304050607F800000000000000000000000000000000000000000000000000000000000000000000000000000000F7 =
      some (.dec m31) := by decide

/-- The masks and values of the rows are the numbers of spec/opcode_table.json. -/
theorem test_rows_are_the_table :
    (encRow defaultConfig).foldl (fun n p => n * 256 + p.mask.toNat) 0 =
      0xFFF0F0F0F0F0F0F0F0F0F0F0F0F0F0F0F0F0F0F0F0F0F0F0F0F0F0F0F0F0F0F0F0F0F0F0F0F0F0F0F0F0F0F0F0F0F0F0F0FF ∧
    (encRow defaultConfig).foldl (fun n p => n * 256 + p.value.toNat) 0 =
      0xF0000000000000000000000000000000000000000000000000000000000000000000000000000000000000000000000000F7 ∧
    (decRow defaultConfig).foldl (fun n p => n * 256 + p.mask.toNat) 0 =
      0xFF000000000000000000000000000000000000000000000000000000000000000000000000000000000000000000000000FF ∧
    (decRow defaultConfig).foldl (fun n p => n * 256 + p.value.toNat) 0 =
      0xF0000000000000000000000000000000000000000000000000000000000000000000000000000000000000000000000000F7 := by
  decide

/-- Malformed messages are refused by name (V21, V22, V23). -/
theorem test_decode_names_the_reason :
    decode defaultConfig (f5.take 49) = .error .tooShort ∧
    decode defaultConfig ([0xF7] ++ p5 ++ [0xF7]) = .error .wrongStart ∧
    decode defaultConfig ([0xF0] ++ p5 ++ [0xF0]) = .error .wrongEnd ∧
    decodeFor defaultConfig .encoder m31 = .error .notAFrameByte ∧
    decodeFor defaultConfig .encoder (f5 ++ [0x00]) = .error .notAFrameLength ∧
    decodeFor { defaultConfig with maxLen := some 50 } .decoder (f5 ++ [0x00]) = .error .tooLong := by decide

/-! ## WellFormed: one ill-formed term for each check -/

theorem test_wf_start_below_range : ({ defaultConfig with start := 0xEF } : Config).legal = false := by decide
theorem test_wf_stop_below_range : ({ defaultConfig with stop := 0x0F } : Config).legal = false := by decide
theorem test_wf_maxLen_below_50 : ({ defaultConfig with maxLen := some 49 } : Config).legal = false := by decide
theorem test_wf_message_too_long :
    (Instr.dec (List.replicate 51 0)).wf { defaultConfig with maxLen := some 50 } = false := by decide
theorem test_wf_good :
    defaultConfig.legal = true ∧ (Instr.enc r5).wf defaultConfig = true ∧
      (Instr.dec (List.replicate 50 0)).wf { defaultConfig with maxLen := some 50 } = true := by decide

/-! ## The environment's records -/

/-- Parameters of the environment: the made-up command words of spec/95_test_vectors.md, a block limit, upper-case tokens without
prefix. -/
def consts (limit : Nat) : ProtocolConsts :=
  ⟨0x00010000, 0x00020000, 0x00030000, 0x01000000, limit, ⟨false, true, false⟩, false⟩

/-- The 20-byte image of P3. -/
def image20 : List Byte := (List.range 20).map (BitVec.ofNat 8)

/-- The twelve samples of P4. -/
def samples12 : List Int := [1, -1, 2, -2, 3, -3, 4, -4, 5, -5, 6, -6]

/-- P3: the two chunks of the 20-byte image. -/
theorem test_chunks_P3 :
    chunkRecord (consts 2) image20 0 = ⟨0x00020000, 0x00010203, 0x04050607, 0x08090A0B, 0x0C0D0E0F, 0⟩ ∧
    chunkRecord (consts 2) image20 1 = ⟨0x00020000, 0x10111213, 0, 0, 0, 0⟩ ∧ chunkCount image20 = 2 := by decide

/-- P4: the last block of the twelve samples, and its variant with a limit of two blocks. -/
theorem test_samples_P4 :
    sampleRecord (consts 3) samples12 2 = ⟨0x01000002, 0x00000006, 0xFFFFFFFA, 0, 0, 0⟩ ∧
    blockCount (consts 3) samples12 = 3 ∧ blockCount (consts 2) samples12 = 2 := by decide

/-- A batch text of two lines, the second short: its one record, the tokens split at runs of whitespace. -/
theorem test_batch_text :
    textRecords ⟨false, true, false⟩ "DEADBEEF  1 2\t3 4 CAFE\r\n5 6\n1 2 3 4 5 6".toList =
      [⟨0xDEADBEEF, 1, 2, 3, 4, 0xCAFE⟩] := by decide

/-- A line that ends the input without a line feed is a line; a bad token and a letter of the other case end the batch. -/
theorem test_batch_text_ends :
    textRecords ⟨false, true, false⟩ "1 2 3 4 5 6".toList = [⟨1, 2, 3, 4, 5, 6⟩] ∧
    textRecords ⟨false, true, false⟩ "1 2 3 4 5 g".toList = [] ∧
    textRecords ⟨false, true, false⟩ "1 2 3 4 5 a".toList = [] ∧
    textRecords ⟨true, true, true⟩ "0x1 2 3 4 5 0XaB".toList = [⟨1, 2, 3, 4, 5, 0xAB⟩] := by decide

/-- A session on `codec` waiting for `key`, with what `receive` will answer. -/
def waiting (key : Word) (inbound : List (Option Message)) : Session :=
  { codec := .reset, phase := .erasing, key := some key, todo := [], channel := ⟨true, inbound, []⟩, decodesNone := false }

/-- P5: a malformed message ends a wait on the key zero. -/
theorem test_session_P5 : ((nextOf (waiting 0 [some [0xF0]]).step).map Session.key) = some none := by decide

/-! ## Witnesses: the hypotheses of each statement are met -/

theorem witness_EncIsInjective :
    exec (.enc r5) .reset = .next { State.reset with recIn := r5, msgOut := some f5 } := by
  rw [exec_enc]; rfl

theorem witness_FramePayloadNeverHoldsAMarker :
    State.reset.cfg.markersLegal = true ∧ msgAfter (exec (.enc r5) .reset) = some f5 ∧
      f5[0]? = some 0xF0 ∧ f5[1]? = some 0x0D ∧ f5[48]? = some 0x0D ∧ f5[49]? = some 0xF7 := by decide

/-- V8: word 2 changed in its last nibble. -/
theorem witness_EachFrameByteDependsOnItsNibbleAlone :
    msgAfter (exec (.enc r5) .reset) = some f5 ∧
    msgAfter (exec (.enc { r5 with w2 := 0x89ABCDEE }) .reset) = some (f5.set 24 0x0E) := by decide

theorem witness_DecAssemblesTheRecord :
    State.reset.cfg.policy = .mask ∧ 50 ≤ m31.length ∧ m31[0]? = some State.reset.cfg.start ∧
      m31[49]? = some State.reset.cfg.stop ∧ ¬ 50 ≤ (f5.take 49).length := by decide

/-- The second way to meet its premise: payload bytes at most `0x0F`, under a policy other than `mask`. -/
theorem witness_DecAssemblesTheRecord_nibbles :
    (withPolicy .reject).cfg.policy ≠ .mask ∧ ∀ j b, 1 ≤ j → j ≤ 48 → f5[j]? = some b → b ≤ 0x0F#8 := by
  refine ⟨by decide, ?_⟩
  intro j b h1 h2 h
  have hall : ∀ x ∈ p5, x ≤ 0x0F#8 := by decide
  obtain ⟨i, rfl⟩ : ∃ i, j = i + 1 := ⟨j - 1, by omega⟩
  have hi : i < p5.length := by
    have : p5.length = 48 := rfl
    omega
  have e : f5[i + 1]? = some p5[i] := by
    show ([0xF0] ++ p5 ++ [0xF7])[i + 1]? = _
    rw [List.getElem?_append_left (by simp; omega), List.getElem?_append_right (by simp)]
    simp [List.getElem?_eq_getElem hi]
  rw [e] at h
  rw [← Option.some.inj h]
  exact hall _ (List.getElem_mem hi)

theorem witness_DecRejectsMalformedMessages :
    (f5.take 49).length < 50 ∧
    (50 ≤ (f5.set 0 0xF7).length ∧ (f5.set 0 0xF7)[0]? ≠ some State.reset.cfg.start) ∧
    (50 ≤ (f5.set 49 0xF0).length ∧ (f5.set 49 0xF0)[49]? ≠ some State.reset.cfg.stop) := by decide

theorem witness_DecFollowsTheHighNibblePolicy :
    50 ≤ m31.length ∧ m31[0]? = some 0xF0 ∧ m31[49]? = some 0xF7 ∧ m31[8]? = some 0xF8 ∧ 0x0F#8 < 0xF8#8 ∧
      (withPolicy .orWrap).cfg = ⟨0xF0, 0xF7, .orWrap, none⟩ ∧ (withPolicy .addWrap).cfg = ⟨0xF0, 0xF7, .addWrap, none⟩ ∧
      (withPolicy .reject).cfg = ⟨0xF0, 0xF7, .reject, none⟩ := by decide

/-- V24 for the first two clauses, V25 for the third. -/
theorem witness_DecIgnoresBytesPastTheFrame :
    50 < (f5 ++ [0x00, 0xF7, 0x55]).length ∧
    msgAfter (exec (.enc r5) .reset) = some ((f5 ++ [0x00, 0xF7, 0x55]).take 50) ∧
    50 < ([0xF0] ++ p5 ++ [0x00, 0xF7]).length ∧
    ([0xF0] ++ p5 ++ [0x00, 0xF7]).getLast? = some State.reset.cfg.stop ∧
    ([0xF0] ++ p5 ++ [0x00, 0xF7])[49]? ≠ some State.reset.cfg.stop := by decide

/-- Word 0 of V31 and of the frame it was made of, from byte 2 on; and the first and last place of equal messages. -/
theorem witness_DecWordDependsOnItsPlaceAlone :
    State.reset.cfg.policy = .mask ∧ 50 ≤ m31.length ∧ m31[0]? = some 0xF0 ∧ m31[49]? = some 0xF7 ∧
      50 ≤ (m31.set 9 0x0A).length ∧ (m31.set 9 0x0A)[0]? = some 0xF0 ∧ (m31.set 9 0x0A)[49]? = some 0xF7 ∧
      (List.range 50).all (fun j => decide (j < 1 ∨ 8 < j) || m31[j]? == (m31.set 9 0x0A)[j]?) = true ∧
      (List.range 50).all (fun j => decide (j < 41 ∨ 48 < j) || m31[j]? == (m31.set 9 0x0A)[j]?) = true := by decide

/-- R22: the same eight bytes, one of them above `0x0F`, in the place of word 0 and of word 5 read as the same word: `or_wrap`
ORs the whole byte `32` over the place of nibbles 7 and 6 (R58's table). -/
theorem test_dec_words_alike :
    recAfter (exec (.dec ([0xF0, 0x01, 0x32] ++ List.replicate 38 0 ++ [0x01, 0x32] ++ List.replicate 6 0 ++ [0xF7]))
      (withPolicy .orWrap)) = some ⟨0x32000000, 0, 0, 0, 0, 0x32000000⟩ := by decide

theorem witness_EveryWordIsTreatedAlike :
    (withPolicy .unlisted).cfg.policy = .unlisted ∧ 50 ≤ m31.length ∧ m31[0]? = some (withPolicy .unlisted).cfg.start ∧
      m31[49]? = some (withPolicy .unlisted).cfg.stop := by decide

/-- V26 and V27. -/
theorem witness_DecDoesNotSearchForAFrame :
    State.reset.cfg.markersLegal = true ∧ msgAfter (exec (.enc r5) .reset) = some f5 ∧
    recAfter (exec (.dec (0x00 :: f5)) .reset) = some zero6 ∧ recAfter (exec (.dec (0xF0 :: f5)) .reset) = some zero6 := by
  decide

/-- V31 under `mask`; the canonical side of R110 is met by V5, the other by V31. -/
theorem witness_MaskClearsTheHighNibbles :
    State.reset.cfg.policy = .mask ∧ 50 ≤ m31.length ∧ m31[0]? = some State.reset.cfg.start ∧
      m31[49]? = some State.reset.cfg.stop := by decide

/-- V9: a decoder with the same markers and one with others. -/
theorem witness_InstancesInteroperateIffMarkersAgree :
    r5 ≠ zero6 ∧ State.reset.cfg.start = State.reset.cfg.start ∧ State.reset.cfg.stop = State.reset.cfg.stop ∧
      State.reset.cfg.stop ≠ (State.resetWith { defaultConfig with stop := 0xF0 }).cfg.stop := by decide

theorem witness_OutputsDependOnOperandAndConstantsAlone :
    State.reset.cfg = (asked [.emitByte]).cfg ∧ State.reset ≠ asked [.emitByte] ∧
      (nextOf (exec (.enc r5) .reset)).isSome = true ∧ (nextOf (exec (.dec f5) (asked [.emitByte]))).isSome = true := by decide

/-- One malformed message for each of the three tests. -/
theorem witness_ZeroRecordIsAmbiguous :
    ([] : Message).length < 50 ∧ (f5.set 0 0xF7)[0]? ≠ some State.reset.cfg.start ∧
      (f5.set 49 0xF0)[49]? ≠ some State.reset.cfg.stop := by decide

theorem witness_NibblesDecomposeAWord :
    (0x12345678 : Word).toNat = ∑ t ∈ Finset.range 8, ((BitVec.ofNat 4 (t + 1) : Nibble)).toNat * 16 ^ (7 - t) := by decide

theorem witness_AccumulatorNeverWraps : ([] : List Byte).length < 8 ∧ (List.replicate 7 (0xFF : Byte)).length < 8 := by decide

theorem witness_FiftyByteStepsEmitTheFrame :
    (asked (List.replicate 50 .emitByte ++ [.takeMessage])).inputs = List.replicate 50 .emitByte ++ [.takeMessage] ∧
      (asked (List.replicate 50 .emitByte ++ [.takeMessage])).encSer = .cleared := by decide

/-- In the middle of an emission of the zero record, with other records asked for. -/
def emitting (es : List Event) : State := { asked es with encSer := ⟨1, false, [0xF0]⟩ }

/-- A record presented, an `ENC`, and a reset, in the middle of an emission, each change `REC_IN`; and one changed and put
back. -/
theorem witness_RecordChangedInMidEmissionIsNeverEmitted :
    (emitting []).encSer.pos ≠ 0 ∧ r5 ≠ (emitting []).recIn ∧
    (nextOf (step (emitting [.presentRecord r5]))).map State.recIn = some r5 ∧
    (nextOf (step (emitting [.request (.enc r5)]))).map State.recIn = some r5 ∧
    (nextOf (step { emitting [.reset] with recIn := r5 })).map State.recIn = some zero6 ∧
    ({ emitting [.emitByte] with encSer := ⟨1, true, [0xF0]⟩ } : State).encSer.changed = true ∧
    (emitting [.presentRecord r5, .presentRecord zero6, .emitByte]).inputs =
      .presentRecord r5 :: .presentRecord (emitting []).recIn :: .emitByte :: [] := by decide

theorem witness_ByteWiseDecodingGivesWhatDecGives :
    (asked (f5.map .receiveByte ++ .endOfMessage :: [.takeRecord])).inputs =
      f5.map .receiveByte ++ .endOfMessage :: [.takeRecord] ∧
    (asked (f5.map .receiveByte ++ .endOfMessage :: [.takeRecord])).decSer = .cleared := by decide

/-- The byte steps at the edges of their ranges: position 49 and 50 of the decoder, position 0, 48 and 49 of the encoder. -/
theorem witness_ByteStepsTouchTheirOwnRegistersAlone :
    (asked [.presentRecord r5]).inputs = [.presentRecord r5] ∧ (asked [.receiveByte 0]).inputs = [.receiveByte 0] ∧
    (⟨49, true, 0, zero6, []⟩ : SerialDecoder).pos < 50 ∧ 50 ≤ (⟨50, true, 0, zero6, []⟩ : SerialDecoder).pos ∧
    (asked [.emitByte]).inputs = [.emitByte] ∧ (⟨0, false, []⟩ : SerialEncoder).pos < 49 ∧
    (⟨48, false, []⟩ : SerialEncoder).pos < 49 ∧ (⟨49, false, []⟩ : SerialEncoder).pos = 49 := by decide

theorem witness_ResetAbandonsWhatIsInProgress : (asked [.reset, .emitByte]).inputs = .reset :: [.emitByte] := by decide

theorem witness_StepRunsTheRequestedOperation :
    (asked [.request (.dec f5)]).inputs = .request (.dec f5) :: [] ∧ State.reset.inputs = [] ∧
    decodeTableWord 400
      0xF0000000000000000000000000000000000000000000000000000000000000000000000000000000000000000000000000F7 =
        some (.enc zero6) := by decide

theorem witness_TakingAnOutputEmptiesItsPort :
    ({ asked [.takeMessage] with msgOut := some f5 } : State).msgOut = some f5 ∧
    (asked [.takeMessage]).inputs = .takeMessage :: [] ∧ (asked [.takeMessage]).msgOut = none ∧
    ({ asked [.takeRecord] with recOut := some r5 } : State).recOut = some r5 ∧
    (asked [.takeRecord]).inputs = .takeRecord :: [] ∧ (asked [.takeRecord]).recOut = none := by decide

/-- Each of the three refusals happens; a byte step with no record presented is none of them. -/
theorem witness_OnlyMisuseByTheEnvironmentIsRefused :
    nextOf (step (asked [.takeMessage])) = none ∧ nextOf (step (asked [.takeRecord])) = none ∧
    nextOf (step { asked [.emitByte] with encSer := ⟨1, true, [0xF0]⟩ }) = none ∧
    (nextOf (step (asked [.emitByte]))).isSome = true := by decide

theorem witness_ConstantsAreNeverWritten : (nextOf (step (asked [.reset]))).isSome = true := by decide

/-- A state in the middle of both byte-at-a-time operations, with a frame on `MSG_OUT`, has the invariant and steps on. -/
theorem witness_EveryStepKeepsTheMachineSound :
    Inv { asked [.emitByte] with
      recIn := r5, msgOut := some f5, encSer := ⟨1, false, [0xF0]⟩, decSer := ⟨1, true, 0, zero6, []⟩ } ∧
    (nextOf (step { asked [.emitByte] with
      recIn := r5, msgOut := some f5, encSer := ⟨1, false, [0xF0]⟩, decSer := ⟨1, true, 0, zero6, []⟩ })).isSome = true := by
  refine ⟨⟨by decide, ?_, .inr ⟨by decide, by decide, rfl, fun _ => rfl⟩, by decide, by decide, by decide⟩, by decide⟩
  intro m hm
  cases hm
  decide

theorem witness_DecodingAnEncodedOperationGivesItBack :
    (Instr.enc r5).wf defaultConfig = true ∧ (Instr.dec []).wf { defaultConfig with maxLen := some 50 } = true := by decide

/-- Each clause, without a bound and at the bound of 50 bytes. -/
theorem witness_TableRowsAreToldApart :
    defaultConfig.maxLenLegal = true ∧ ({ defaultConfig with maxLen := some 50 } : Config).maxLenLegal = true ∧
    ({ defaultConfig with maxLen := some 50 } : Config).carries m31 = true ∧
    ({ defaultConfig with maxLen := some 50 } : Config).carries (f5 ++ [0x00]) = false ∧
    defaultConfig.carries (f5 ++ [0x00]) = true ∧ 50 ≤ m31.length ∧ m31[0]? = some defaultConfig.start ∧
    m31[49]? = some defaultConfig.stop ∧ m31[8]? = some 0xF8 ∧ 0x0F#8 < 0xF8#8 ∧ 50 < (f5 ++ [0x00]).length ∧
    ([] : Message).length < 50 ∧ (0x00 :: f5)[0]? ≠ some defaultConfig.start ∧ (0xF0 :: f5)[49]? ≠ some defaultConfig.stop := by
  decide

theorem witness_OperationsAgreeWithTheTablePattern :
    State.reset.cfg.policy = .mask ∧ 50 ≤ m31.length ∧ m31[0]? = some State.reset.cfg.start ∧
      m31[49]? = some State.reset.cfg.stop := by decide

/-- P2 in small: a poll that finds nothing, a damaged reply, then the acknowledgement. -/
theorem witness_WaitEndsAtTheFirstMatchingReply :
    (waiting 0xDEADBEEF [none, some (f5.take 49), some f5]).key = some 0xDEADBEEF ∧
    (waiting 0xDEADBEEF [none, some (f5.take 49), some f5]).channel.inbound = [none, some (f5.take 49)] ++ some f5 :: [] ∧
    (0xDEADBEEF : Word) ≠ 0 ∧ (recAfter (exec (.dec (f5.take 49)) .reset)).map Record.w0 ≠ some 0xDEADBEEF ∧
    (recAfter (exec (.dec f5) .reset)).map Record.w0 = some 0xDEADBEEF := by decide

/-- The reading that polls again, and the one that ends the wait. -/
theorem witness_NoneIsPolledAgainUnlessTheKeyIsZero :
    (waiting 0 [none]).key = some 0 ∧ (waiting 0 [none]).channel.inbound = none :: [] ∧
    (nextOf (waiting 0 [none]).step).map Session.key = some (some 0) ∧
    (nextOf (Session.step { waiting 0 [none] with decodesNone := true })).map Session.key = some none ∧
    (nextOf (Session.step { waiting 1 [none] with decodesNone := true })).map Session.key = some (some 1) := by decide

theorem witness_SilentDeviceIsWaitedForWithoutEnd :
    (waiting 1 [none, none]).key = some 1 ∧ (1 : Word) ≠ 0 ∧ (waiting 0 []).decodesNone = false ∧
      ∀ x ∈ (waiting 1 [none, none]).channel.inbound, x = none := by decide

/-- The wait goes on, ends by the reply, and ends by `none` on a zero key. -/
theorem witness_NothingIsSentWhileAnAcknowledgementIsAwaited :
    (waiting 0xDEADBEEF [some f5]).key = some 0xDEADBEEF ∧
    (nextOf (waiting 0xDEADBEEF [some f5]).step).map Session.key = some none ∧
    (nextOf (waiting 1 [some f5]).step).map Session.key = some (some 1) ∧
    (nextOf (Session.step { waiting 0 [] with decodesNone := true })).map Session.key = some none := by decide

theorem witness_MalformedReplyEndsAWaitIffTheKeyIsZero :
    (waiting 0 [some [0xF0]]).channel.inbound = some [0xF0] :: [] ∧ ([0xF0] : Message).length < 50 ∧
    (nextOf (waiting 1 [some [0xF0]]).step).map Session.key = some (some 1) := by decide

theorem witness_SessionStepsLeaveNothingInTheBlock :
    (waiting 1 [some f5]).codec.recIn = unpresentedRecord ∧ (waiting 1 [some f5]).codec.msgIn = unpresentedMessage ∧
    (waiting 1 [some f5]).codec.msgOut = none ∧ (waiting 1 [some f5]).codec.recOut = none ∧
    (nextOf (waiting 1 [some f5]).step).isSome = true := by decide

/-- A session that waits, and one that is done. -/
theorem witness_SessionOwnsItsChannelUntilDone :
    (waiting 1 [some f5]).Inv ∧ (nextOf (waiting 1 [some f5]).step).isSome = true ∧
    Session.Inv (Session.finish { waiting 1 [] with key := none }) := by
  refine ⟨⟨by decide, by decide, by decide⟩, by decide, ⟨by decide, by decide, by decide⟩⟩

theorem witness_AcknowledgedFlowSendsEveryRequestInOrder :
    ∀ q : Request, ((fun q : Request => (⟨q.record.w0, 7, 7, 7, 7, 7⟩ : Record)) q).w0 = q.record.w0 := fun _ => rfl

theorem witness_FirmwareIsSentInPaddedChunks :
    ([chunkRecord (consts 2) [] 0] : List Record)[0]? = some ⟨0x00020000, 0, 0, 0, 0, 0⟩ ∧ chunkCount [] = 0 ∧
      chunkCount (List.replicate 16 0) = 1 ∧ chunkCount (List.replicate 17 0) = 2 := by decide

theorem witness_SamplesAreSentInTaggedBlocks :
    (((Flow.samples [-1]).requests (consts 1))[0]?).map Request.record =
      some ⟨0x01000000, 0xFFFFFFFF, 0, 0, 0, 0⟩ := by decide

theorem witness_BadInputEndsABatchAndStopsADirectLaunch :
    ([] : TokenLine).length < 6 ∧ ([some 1, some 2, some 3, some 4, some 5, none] : TokenLine)[5]? = some none ∧
    ([['1'], ['2'], ['3'], ['4'], ['5'], ['g']] : List (List Char))[5]? = some ['g'] ∧
    readToken (consts 1).text ['g'] = none ∧
    [['1'], ['2'], ['3'], ['4'], ['5'], ['6']].map (readToken (consts 1).text) =
      (wordList ⟨1, 2, 3, 4, 5, 6⟩).map some ∧
    (⟨false, [], []⟩ : Channel).owned = false := by decide

/-- The last number that fits a word, and a character of no spelling. -/
theorem witness_HexadecimalTokensAreRead :
    (∀ c ∈ List.replicate 8 'F', (hexDigit (consts 1).text c).isSome = true) ∧
    (List.replicate 8 'F').foldl (fun n c => 16 * n + (hexDigit (consts 1).text c).getD 0) 0 < 2 ^ 32 ∧
    'g' ∈ ['1', '2', 'g'] ∧ hexDigit ⟨true, true, true⟩ 'g' = none ∧
    'g' ≠ 'x' ∧ 'g' ≠ 'X' ∧ 'g' ≠ '+' ∧ 'g' ≠ '-' := by
  refine ⟨fun c hc => ?_, (by decide : 4294967295 < 2 ^ 32), by decide, by decide, by decide⟩
  rw [List.eq_of_mem_replicate hc]
  decide

/-- A letter of a case that is not allowed, an allowed prefix, and a token of no spelling: a sign that is not at its head. -/
theorem witness_HexadecimalTokensAreRead_spellings :
    hexDigit ⟨false, true, true⟩ 'a' = none ∧ TextSyntax.AllowsPrefix ⟨false, true, true⟩ ['0', 'x'] ∧
    ∀ sign pre digits : List Char, sign = [] ∨ sign = ['+'] ∨ sign = ['-'] →
      TextSyntax.AllowsPrefix ⟨false, true, true⟩ pre → ['1', '+'] = sign ++ pre ++ digits →
      digits = [] ∨ ∃ c ∈ digits, hexDigit ⟨false, true, true⟩ c = none := by
  refine ⟨by decide, .inr ⟨rfl, .inl rfl⟩, ?_⟩
  rintro sign pre digits (rfl | rfl | rfl) (rfl | ⟨-, rfl | rfl⟩) h <;> simp at h
  subst h
  exact .inr ⟨'+', by decide, by decide⟩

theorem witness_BatchTextOfRecordsReadsBack :
    (if true then (consts 1).text.upperCase else (consts 1).text.lowerCase) = true ∧
    (if false then false else (⟨true, false, false⟩ : TextSyntax).lowerCase) = true ∧
    recordLine true ⟨1, 0, 0, 0, 0, 0xAB⟩ = "00000001 00000000 00000000 00000000 00000000 000000AB\n".toList := by decide

theorem witness_LaunchesWithoutMeaningStartNoSession :
    ((Launch.bin [1]).flow (consts 1).text).toOption = some (.firmware [1]) ∧
    ((Launch.txt []).flow (consts 1).text).toOption = some (.batch []) ∧
    (⟨true, [], []⟩ : Channel).owned = true ∧ (⟨false, [], []⟩ : Channel).owned = false := by decide

end Sys2Proof.Tests
end

/-! SUPPORT. The statements of 10_state.md: the constants, the ports and their working registers, and what one step does to
them. The general lemmas come first; each statement is assembled from them. -/

namespace Sys2Proof.Machine

/-! ## The equations of a step -/

/-- The note of a change as one condition: in the middle of an emission, and with another record on `REC_IN` (R78, U12). -/
theorem State.watchRecord_eq_ite (s : State) (before : Record) :
    s.watchRecord before =
      if s.encSer.pos ≠ 0 ∧ s.recIn ≠ before then { s with encSer := { s.encSer with changed := true } } else s := by
  by_cases hpos : s.encSer.pos = 0
  · simp [State.watchRecord, hpos]
  · by_cases hrec : s.recIn = before <;> simp [State.watchRecord, hpos, hrec, State.setEncSer]

/-- The note of a change as the value of the encoder's own field. -/
theorem State.watchRecord_eq_or (s : State) (before : Record) :
    s.watchRecord before = { s with encSer := { s.encSer with
      changed := s.encSer.changed || (decide (s.encSer.pos ≠ 0) && decide (s.recIn ≠ before)) } } := by
  rw [State.watchRecord_eq_ite, ← Bool.decide_and]
  by_cases hnote : s.encSer.pos ≠ 0 ∧ s.recIn ≠ before
  · rw [if_pos hnote, decide_eq_true hnote, Bool.or_true]
  · rw [if_neg hnote, decide_eq_false hnote, Bool.or_false]

/-- `ENC` and `DEC` always answer a next state, and leave the byte-at-a-time encoder as it was (R150, R161). -/
theorem exec_next_encSer (i : Instr) (s : State) : ∃ t, exec i s = .next t ∧ t.encSer = s.encSer := by
  cases i with
  | enc r => exact ⟨_, exec_enc r s, rfl⟩
  | dec m => exact ⟨_, exec_dec m s, rfl⟩

/-- A requested operation runs as `exec` runs it, watched for a change of `REC_IN` (U12). -/
theorem runEvent_request {i : Instr} {s t : State} (h : exec i s = .next t) :
    runEvent (.request i) s = .next (t.watchRecord s.recIn) := by
  rw [runEvent, h, mapNext_next]

/-- A requested operation, with the watch written as the note it makes. -/
theorem runEvent_request_note (i : Instr) (s : State) :
    ∃ t, exec i s = .next t ∧ runEvent (.request i) s =
      .next (if s.encSer.pos ≠ 0 ∧ t.recIn ≠ s.recIn then { t with encSer := { t.encSer with changed := true } } else t) := by
  obtain ⟨t, hexec, hser⟩ := exec_next_encSer i s
  refine ⟨t, hexec, ?_⟩
  rw [runEvent_request hexec, State.watchRecord_eq_ite, hser]

/-- A table word that decodes asks for the operation it decodes to. -/
theorem tableRequest_of_decode {nbits w : Nat} {i : Instr} (h : decodeTableWord nbits w = some i) :
    tableRequest nbits w = i := by
  simp only [tableRequest, h]

/-- The step after a table word is placed next runs its request on the state as it was. -/
theorem step_withFetchWord (s : State) (nbits w : Nat) :
    step (s.withFetchWord nbits w) = runEvent (.request (tableRequest nbits w)) s :=
  step_event _ _ s.inputs rfl

/-- Emitting goes on while `REC_IN` has not changed (R78). -/
theorem emitByte_of_unchanged (s : State) (h : s.encSer.changed = false) : emitByte s = .next (emitOf s) := by
  simp [emitByte, h]

/-- A byte past the fiftieth is ignored (R97). -/
theorem SerialDecoder.onByte_of_saturated (c : Config) (d : SerialDecoder) (b : Byte) (h : 50 ≤ d.pos) : d.onByte c b = d := by
  have hstart : d.pos ≠ startIdx := by simp only [startIdx]; omega
  have hpayload : ¬ d.pos ≤ payloadLen := by simp only [payloadLen]; omega
  have hstop : d.pos ≠ endIdx := by simp only [endIdx]; omega
  have hframe : ¬ d.pos < frameLen := by simp only [frameLen]; omega
  simp only [SerialDecoder.onByte, if_neg hstart, if_neg hpayload, if_neg hstop, if_neg hframe]

theorem takeMessage_of_some {s : State} {m : Message} (h : s.msgOut = some m) : takeMessage s = .next s.clearMessage := by
  simp only [takeMessage, h]

theorem takeMessage_of_none {s : State} (h : s.msgOut = none) : takeMessage s = .refused .noOutputValue := by
  simp only [takeMessage, h]

theorem takeRecord_of_some {s : State} {r : Record} (h : s.recOut = some r) : takeRecord s = .next s.clearRecord := by
  simp only [takeRecord, h]

theorem takeRecord_of_none {s : State} (h : s.recOut = none) : takeRecord s = .refused .noOutputValue := by
  simp only [takeRecord, h]

/-! ## The constants (R19) -/

@[simp] theorem emitOf_cfg (s : State) : (emitOf s).cfg = s.cfg := by
  by_cases h : s.encSer.pos = 49
  · rw [emitOf_last s h]
  · rw [emitOf_of_ne_last s h]

theorem runEvent_cfg {e : Event} {s t : State} (h : runEvent e s = .next t) : t.cfg = s.cfg := by
  rcases runEvent_next_cases h with ⟨r, -, rfl⟩ | ⟨m, -, rfl⟩ | ⟨r, -, rfl⟩ | ⟨-, -, rfl⟩ | ⟨b, -, rfl⟩ | ⟨-, rfl⟩ |
    ⟨-, -, rfl⟩ | ⟨-, -, rfl⟩ | ⟨-, rfl⟩ <;> simp

/-- Settles O31: a step with nothing asked keeps the state, and each act of the environment keeps the constants. -/
theorem constantsAreNeverWritten : Obligations.ConstantsAreNeverWritten := by
  intro s t h
  cases hin : s.inputs with
  | nil =>
    rw [step_idle s hin] at h
    cases h
    rfl
  | cons e rest =>
    rw [step_event s e rest hin] at h
    exact (runEvent_cfg h).trans (State.setInputs_cfg s rest)

/-! ## Every word alike (R22) -/

/-- One rejected place rejects the whole message (R58, R87). -/
theorem decRecord_of_rejectsWord {c : Config} {m : Message} {k : Nat} (hk : k < 6)
    (h : rejectsWord c.policy (placeBytes m k) = true) : decRecord c m = zero6 := by
  have hrej : rejectsPayload c.policy m = true := (rejectsPayload_iff _ _).2 ⟨k, hk, h⟩
  simp [decRecord, accepts, hrej]

/-- A message that passes the three tests, and of which no place is rejected, is accepted (R86, R58). -/
theorem accepts_of_places {c : Config} {m : Message} (hframe : frameOk c m = true)
    (h : ∀ k < 6, rejectsWord c.policy (placeBytes m k) = false) : accepts c m = true := by
  have hrej : rejectsPayload c.policy m = false := (rejectsPayload_eq_false_iff _ _).2 h
  simp [accepts, hframe, hrej]

/-- Settles O11: under the policy `p`, `F` is `assemble p`, `J` is `rejectsWord p`, and `G` is `wordBytes`. -/
theorem everyWordIsTreatedAlike : Obligations.EveryWordIsTreatedAlike := by
  refine ⟨fun p => ⟨assemble p, rejectsWord p, ?_⟩, wordBytes, fun r s => ⟨encFrame s.cfg r, exec_enc r s, ?_⟩⟩
  · rintro m s rfl hlen hstart hstop
    have hframe : frameOk s.cfg m = true := (frameOk_iff _ _).2 ⟨hlen, hstart, hstop⟩
    refine ⟨decRecord s.cfg m, exec_dec m s, ?_, ?_⟩
    · rintro ⟨k, hk, hrej⟩
      exact decRecord_of_rejectsWord hk hrej
    · intro hrej k hk
      exact word_decRecord s.cfg m (accepts_of_places hframe hrej) k hk
  · intro k hk
    have hplace := placeBytes_encFrame s.cfg r [] k hk
    rwa [List.append_nil] at hplace

/-! ## One byte step (R78, R97) -/

/-- Settles O25: one part for the record presented, the byte received, the byte emitted, and the last byte emitted. -/
theorem byteStepsTouchTheirOwnRegistersAlone : Obligations.ByteStepsTouchTheirOwnRegistersAlone := by
  refine ⟨fun r s rest hin => ?presented, fun b s rest hin => ?received, fun s rest hin hpos hch => ?emitted,
    fun s rest hin hpos hch => ?last⟩
  case presented =>
    rw [step_event s _ rest hin, runEvent, State.watchRecord_eq_or]
    rfl
  case received =>
    refine ⟨s.decSer.onByte s.cfg b, step_event s _ rest hin, fun hpos => ?_, ?_⟩
    · rw [SerialDecoder.onByte_pos, if_pos hpos]
    · exact SerialDecoder.onByte_of_saturated s.cfg s.decSer b
  case emitted =>
    rw [step_event s _ rest hin, runEvent, emitByte_of_unchanged (s.setInputs rest) hch,
      emitOf_of_ne_last (s.setInputs rest) (Nat.ne_of_lt hpos)]
    simp [State.setInputs, hch]
  case last =>
    rw [step_event s _ rest hin, runEvent, emitByte_of_unchanged (s.setInputs rest) hch,
      emitOf_last (s.setInputs rest) hpos]
    rfl

/-! ## What is asked, and what is taken (R11, R17, R26) -/

/-- Settles O28: a request asked for, a table word placed next, and nothing asked. -/
theorem stepRunsTheRequestedOperation : Obligations.StepRunsTheRequestedOperation := by
  refine ⟨fun i s rest hin => ?_, fun nbits w i s hdec => ?_, step_idle⟩
  · rw [step_event s _ rest hin]
    exact runEvent_request_note i (s.setInputs rest)
  · rw [step_withFetchWord, tableRequest_of_decode hdec]
    exact runEvent_request_note i s

/-- Settles O29: the two ports with a value, and the two without. -/
theorem takingAnOutputEmptiesItsPort : Obligations.TakingAnOutputEmptiesItsPort := by
  refine ⟨fun s rest M hin hout => ?_, fun s rest V hin hout => ?_, fun s rest hin hout => ?_, fun s rest hin hout => ?_⟩
  · rw [step_event s _ rest hin]
    exact takeMessage_of_some hout
  · rw [step_event s _ rest hin]
    exact takeRecord_of_some hout
  · rw [step_event s _ rest hin]
    exact takeMessage_of_none hout
  · rw [step_event s _ rest hin]
    exact takeRecord_of_none hout

/-- Settles O18: an output is `encFrame` or `decRecord` of the constants and the operand. -/
theorem outputsDependOnOperandAndConstantsAlone : Obligations.OutputsDependOnOperandAndConstantsAlone := by
  intro s s' hcfg
  constructor
  · intro r t t' h h'
    rw [exec_enc] at h h'
    cases h
    cases h'
    simp only [hcfg]
  · intro m t t' h h'
    rw [exec_dec] at h h'
    cases h
    cases h'
    simp only [hcfg]

/-! ## Reset (R24) -/

/-- Settles O27: each field of the reset state is written out in `State.resetWith` and `defaultConfig`. -/
theorem resetLeavesTheRegistersClearedAndPortsWithoutValue :
    Obligations.ResetLeavesTheRegistersClearedAndPortsWithoutValue :=
  ⟨rfl, rfl, rfl, rfl, rfl, rfl, rfl, rfl⟩

theorem defaultConfig_legal : defaultConfig.legal = true := by decide

/-- The decoder's registers at a message boundary are sound (R97). -/
theorem SerialDecoder.cleared_sound : SerialDecoder.cleared.sound :=
  ⟨Nat.zero_le _, fun _ => rfl, fun _ => rfl, fun _ => rfl⟩

/-- The invariant holds at reset whatever the constants are, if they are legal (R6, R15, R24). -/
theorem inv_resetWith {c : Config} (h : c.legal = true) : Inv (State.resetWith c) :=
  ⟨h, fun m hm => (Option.some_ne_none m hm.symm).elim, .inl rfl, SerialDecoder.cleared_sound⟩

/-- Settles O33: the default constants are legal. -/
theorem resetStateIsSound : Obligations.ResetStateIsSound := inv_resetWith defaultConfig_legal

end Sys2Proof.Machine

/-! SUPPORT. The statement of 20_memory.md: the order of a step of the encoder unit and a step of the decoder unit. -/

namespace Sys2Proof.Machine

/-- Settles O17: each unit writes its own two ports and reads the constants alone, which the other leaves as they are. -/
theorem encoderAndDecoderStepsCommute : Obligations.EncoderAndDecoderStepsCommute := by
  intro r m s
  exact ⟨_, _, { s with
      recIn := r, msgOut := some (encFrame s.cfg r), msgIn := m, recOut := some (decRecord s.cfg m) },
    exec_enc r s, exec_dec m _, exec_dec m s, exec_enc r _⟩

end Sys2Proof.Machine

/-! SUPPORT. The statements of 30_encoding.md: the two rows of the table, the payload policies of `DEC`, and the text form of a
record. The general lemmas come first in each part; each statement is assembled from them. -/

namespace Sys2Proof.Machine

/-! ## The rows of the table (R57, R61) -/

/-- The image of `ENC` is the frame of its record (R51, R61, R71). -/
theorem encode_enc (c : Config) (r : Record) : encode c (.enc r) = encFrame c r := by
  simp only [encode, fieldBytes_eq_wordBytes]
  rfl

/-- A frame passes the tests common to both rows. -/
theorem rowError_encFrame (c : Config) (r : Record) : rowError c (encFrame c r) = none :=
  (rowError_none_iff c _).2 ⟨(encFrame_length c r).ge, encFrame_start c r, encFrame_stop c r⟩

/-- Both rows fix the two markers whole and one pattern over the payload, so a message that passes the common tests fits such a
row if every payload byte fits that pattern. -/
theorem fitsRow_of_rowError_none {c : Config} {m : Message} (mask value : Byte) (h : rowError c m = none) :
    fitsRow (⟨0xFF, c.start⟩ :: (List.replicate payloadLen ⟨mask, value⟩ ++ [⟨0xFF, c.stop⟩])) m =
      (payload m).all fun b => (b &&& mask) == value := by
  obtain ⟨hlen, hstart, hstop⟩ := (rowError_none_iff c m).1 h
  have hwhole : ∀ b : Byte, b &&& 0xFF#8 = b := fun _ => BitVec.and_allOnes
  cases m with
  | nil => simp at hlen
  | cons b bs =>
    have hbs : 49 ≤ bs.length := by simpa using hlen
    obtain rfl : b = c.start := by simpa using hstart
    have hlast : bs.drop payloadLen = c.stop :: bs.drop 49 := by
      rw [List.drop_eq_getElem_cons (show 48 < bs.length by omega)]
      rw [List.getElem?_cons_succ, List.getElem?_eq_getElem (by omega)] at hstop
      rw [Option.some.inj hstop]
    rw [fitsRow_cons, fitsRow_replicate _ _ _ _ _ (Nat.le_of_succ_le hbs), hlast, fitsRow_cons]
    simp [hwhole, fitsRow, payload]

/-- A byte has its high four bits clear if it is no more than a nibble (R52, R55). -/
theorem highNibble_clear_eq (b : Byte) : ((b &&& 0xF0#8) == 0x00#8) = !aboveNibble b := by
  revert b
  decide

/-- Of the messages that pass the common tests, those fit the row ENC whose payload bytes are all nibbles (R52, R61). -/
theorem fitsRow_encRow {c : Config} {m : Message} (h : rowError c m = none) :
    fitsRow (encRow c) m = (payload m).all fun b => !aboveNibble b := by
  rw [encRow, fitsRow_of_rowError_none _ _ h]
  exact List.all_congr rfl fun b => highNibble_clear_eq b

/-- Every message that passes the common tests fits the row DEC, which fixes nothing between the markers (R61). -/
theorem fitsRow_decRow {c : Config} {m : Message} (h : rowError c m = none) : fitsRow (decRow c) m = true := by
  rw [decRow, fitsRow_of_rowError_none _ _ h]
  simp

theorem fitsRow_encRow_encFrame (c : Config) (r : Record) : fitsRow (encRow c) (encFrame c r) = true := by
  have hpayload := payload_encFrame c r []
  rw [List.append_nil] at hpayload
  rw [fitsRow_encRow (rowError_encFrame c r), hpayload]
  simp [wordList, wordBytes]

/-- A payload byte above `0x0F` fits no row ENC (R52). -/
theorem fitsRow_encRow_of_highByte {c : Config} {m : Message} (h : rowError c m = none)
    (hhigh : ∃ j b, 1 ≤ j ∧ j ≤ 48 ∧ m[j]? = some b ∧ 0x0F#8 < b) : fitsRow (encRow c) m = false := by
  obtain ⟨j, b, h1, h48, hj, hb⟩ := hhigh
  have hmem : b ∈ payload m := (mem_payload_iff m b ((rowError_none_iff c m).1 h).1).2 ⟨j, h1, h48, hj⟩
  rw [fitsRow_encRow h]
  exact List.all_eq_false.2 ⟨b, hmem, by simpa [aboveNibble] using hb⟩

/-! ## The fields of a row (R61 against R54, R88) -/

theorem word_fieldRecord (m : Message) (k : Nat) (hk : k < 6) : word (fieldRecord m) k = fieldWord m k := by
  interval_cases k <;> rfl

/-- A field of the pattern is the word `mask` reads from the same eight bytes. -/
theorem fieldWord_eq_placeWord (m : Message) (k : Nat) (hm : 50 ≤ m.length) (hk : k < 6) :
    fieldWord m k = placeWord .mask m k := by
  apply BitVec.eq_of_toNat_eq
  rw [fieldWord_toNat, placeWord, assemble_of_listed _ _ (by decide), placeBytes_eq_getD m k hm hk, accumulateAll_mask_eight]
  simp only [Finset.sum_range_succ, Finset.sum_range_zero, Nat.add_comm _ (8 * k), Nat.add_assoc]
  simp

/-- The fields of a frame are the words of its record. -/
theorem fieldRecord_encFrame (c : Config) (r : Record) : fieldRecord (encFrame c r) = r := by
  apply record_ext_word
  intro k hk
  have hplace := placeBytes_encFrame c r [] k hk
  rw [List.append_nil] at hplace
  rw [word_fieldRecord _ k hk, fieldWord_eq_placeWord _ k (encFrame_length c r).ge hk, placeWord, hplace, assemble_wordBytes]

/-- Under `mask`, `DEC` answers a well-formed message with its fields. -/
theorem decRecord_mask {c : Config} {m : Message} (hp : c.policy = .mask) (hframe : frameOk c m = true) :
    decRecord c m = fieldRecord m := by
  apply record_ext_word
  intro k hk
  rw [word_decRecord c m (accepts_of_frameOk hframe (.inl hp)) k hk, word_fieldRecord m k hk, hp]
  exact (fieldWord_eq_placeWord m k ((frameOk_iff c m).1 hframe).1 hk).symm

/-! ## Reading an image -/

/-- A frame read for the encoder is `ENC` of its record (R60). -/
theorem decodeFor_encFrame (c : Config) (r : Record) : decodeFor c .encoder (encFrame c r) = .ok (.enc r) := by
  simp [decodeFor, rowError_encFrame, encFrame_length, fitsRow_encRow_encFrame, fieldRecord_encFrame]

/-- Settles O34: the encoder's image is a frame, and the decoder's is the message its port carries. -/
theorem decodingAnEncodedOperationGivesItBack : Obligations.DecodingAnEncodedOperationGivesItBack := by
  intro c i hwf
  cases i with
  | enc r =>
    rw [encode_enc]
    exact decodeFor_encFrame c r
  | dec m =>
    have hcarries : c.carries m = true := hwf
    simp [Instr.unit, encode, decodeFor, hcarries]

/-- Every port carries a frame, for no legal bound is below 50 bytes (R15). -/
theorem carries_encFrame {c : Config} (h : c.maxLenLegal = true) (r : Record) : c.carries (encFrame c r) = true := by
  cases hmax : c.maxLen with
  | none => simp [Config.carries, hmax]
  | some n =>
    have hbound : 50 ≤ n := by simpa [Config.maxLenLegal, hmax] using h
    simp only [Config.carries, hmax]
    exact decide_eq_true ((encFrame_length c r).trans_le hbound)

/-- A frame that the port carries reads as `ENC` of its record, the row tried first (log 1). -/
theorem decode_encFrame {c : Config} {r : Record} (h : c.carries (encFrame c r) = true) :
    decode c (encFrame c r) = .ok (.enc r) := by
  simp [decode, rowError_encFrame, h, encFrame_length, fitsRow_encRow_encFrame, fieldRecord_encFrame]

/-- What passes the common tests, is carried, and is no frame reads as `DEC` (R61). -/
theorem decode_of_not_frame {c : Config} {m : Message} (hrow : rowError c m = none) (hcarries : c.carries m = true)
    (h : m.length ≠ 50 ∨ fitsRow (encRow c) m = false) : decode c m = .ok (.dec m) := by
  have hfirst : (decide (m.length = 50) && fitsRow (encRow c) m) = false := by
    rcases h with hlen | hfits
    · simp [hlen]
    · simp [hfits]
  simp [decode, hrow, hcarries, hfirst, fitsRow_decRow hrow]

/-- What fails a common test or is not carried reads as nothing (R57, R14). -/
theorem decode_error {c : Config} {m : Message} (h : rowError c m ≠ none ∨ c.carries m = false) :
    ∃ e, decode c m = .error e := by
  cases hrow : rowError c m with
  | some e => exact ⟨e, by simp [decode, hrow]⟩
  | none =>
    have hcarries : c.carries m = false := h.resolve_left fun hne => hne hrow
    exact ⟨.tooLong, by simp [decode, hrow, hcarries]⟩

/-- Settles O35: a frame, a well-formed message that is no frame, and what fits no row or is not carried. -/
theorem tableRowsAreToldApart : Obligations.TableRowsAreToldApart := by
  refine fun c hmax => ⟨fun r => ?frame, fun m hcarries hlen hstart hstop hother => ?other, fun m hbad => ?bad⟩
  case frame =>
    rw [encode_enc]
    exact decode_encFrame (carries_encFrame hmax r)
  case other =>
    have hrow : rowError c m = none := (rowError_none_iff c m).2 ⟨hlen, hstart, hstop⟩
    refine decode_of_not_frame hrow hcarries ?_
    rcases hother with hlong | hhigh
    · exact .inl hlong.ne'
    · exact .inr (fitsRow_encRow_of_highByte hrow hhigh)
  case bad =>
    refine decode_error ?_
    rw [Ne, rowError_none_iff]
    by_cases hcarries : c.carries m = false
    · exact .inr hcarries
    · left
      rintro ⟨hlen, hstart, hstop⟩
      rcases hbad with h | h | h | h
      · exact absurd hlen (by omega)
      · exact h hstart
      · exact h hstop
      · exact hcarries h

/-- Settles O36: `encFrame` is the row ENC's image, and under `mask` an accepted message is read by its fields. -/
theorem operationsAgreeWithTheTablePattern : Obligations.OperationsAgreeWithTheTablePattern := by
  refine ⟨fun r s => ?_, fun m s hp hlen hstart hstop => ?_⟩
  · rw [encode_enc]
    exact exec_enc r s
  · rw [exec_dec, decRecord_mask hp ((frameOk_iff _ _).2 ⟨hlen, hstart, hstop⟩)]

/-- Settles O37: the rows are closed words, so the decoder is run on them. -/
theorem writtenOutWordsDecode : Obligations.WrittenOutWordsDecode := by
  unfold Obligations.WrittenOutWordsDecode
  decide

/-! ## The payload policies (R58) -/

/-- `or_wrap` on eight bytes: each byte goes in whole, shifted by its place (R58's table). -/
theorem accumulateAll_orWrap_eight (b0 b1 b2 b3 b4 b5 b6 b7 : Byte) :
    accumulateAll .orWrap 0 [b0, b1, b2, b3, b4, b5, b6, b7] =
      b0.setWidth 32 <<< 28 ||| b1.setWidth 32 <<< 24 ||| b2.setWidth 32 <<< 20 ||| b3.setWidth 32 <<< 16 |||
        b4.setWidth 32 <<< 12 ||| b5.setWidth 32 <<< 8 ||| b6.setWidth 32 <<< 4 ||| b7.setWidth 32 := by
  simp [accumulate, BitVec.shiftLeft_or_distrib, ← BitVec.shiftLeft_add]

/-- The `add_wrap` step as arithmetic, reduced to 32 bits (R58's table). -/
theorem addWrap_step_toNat (acc : Word) (b : Byte) :
    (accumulate .addWrap acc b).toNat = (acc.toNat * 16 + b.toNat) % 2 ^ 32 := by
  simp only [accumulate, BitVec.toNat_add, BitVec.toNat_shiftLeft, BitVec.toNat_setWidth, Nat.shiftLeft_eq]
  omega

/-- `add_wrap` on eight bytes: the sum of the bytes by place, reduced to 32 bits once (R58's table). -/
theorem accumulateAll_addWrap_eight (b0 b1 b2 b3 b4 b5 b6 b7 : Byte) :
    (accumulateAll .addWrap 0 [b0, b1, b2, b3, b4, b5, b6, b7]).toNat =
      (b0.toNat * 16 ^ 7 + b1.toNat * 16 ^ 6 + b2.toNat * 16 ^ 5 + b3.toNat * 16 ^ 4 + b4.toNat * 16 ^ 3 +
        b5.toNat * 16 ^ 2 + b6.toNat * 16 + b7.toNat) % 2 ^ 32 := by
  simp only [accumulateAll_cons, accumulateAll_nil, addWrap_step_toNat]
  have hzero : (0 : Word).toNat = 0 := rfl
  rw [hzero]
  omega

/-- Under a policy without a reject condition, a message that passes the three tests is accepted (R58's table). -/
theorem accepts_of_total {c : Config} {m : Message} (hframe : frameOk c m = true)
    (hp : c.policy = .mask ∨ c.policy = .orWrap ∨ c.policy = .addWrap) : accepts c m = true :=
  accepts_of_places hframe fun k _ => rejectsWord_of_total c.policy (placeBytes m k) hp

/-- A byte of the payload is a byte of one of the six places (R32). -/
theorem mem_placeBytes_of_getElem? {m : Message} {j : Nat} {b : Byte} (h1 : 1 ≤ j) (hj : m[j]? = some b) :
    b ∈ placeBytes m ((j - 1) / 8) := by
  have hindex : 1 + nibsPerWord * ((j - 1) / 8) + (j - 1) % 8 = j := by simp only [nibsPerWord]; omega
  refine List.mem_of_getElem? (i := (j - 1) % 8) ?_
  rw [placeBytes, List.getElem?_take_of_lt (Nat.mod_lt _ (by decide)), List.getElem?_drop, hindex, hj]

/-- Under `reject`, one payload byte above `0x0F` makes the message malformed (R58's table). -/
theorem decRecord_reject {c : Config} {m : Message} (hp : c.policy = .reject)
    (h : ∃ j b, 1 ≤ j ∧ j ≤ 48 ∧ m[j]? = some b ∧ 0x0F#8 < b) : decRecord c m = zero6 := by
  obtain ⟨j, b, h1, h48, hj, hb⟩ := h
  refine decRecord_of_rejectsWord (k := (j - 1) / 8) (by omega) ?_
  rw [hp, rejectsWord_reject]
  exact List.any_eq_true.2 ⟨b, mem_placeBytes_of_getElem? h1 hj, decide_eq_true hb⟩

/-- Settles O8: the accumulator of each named policy in closed form, and the reject. -/
theorem decFollowsTheHighNibblePolicy : Obligations.DecFollowsTheHighNibblePolicy := by
  intro m s hlen hstart hstop
  have hframe : frameOk s.cfg m = true := (frameOk_iff _ _).2 ⟨hlen, hstart, hstop⟩
  refine ⟨decRecord s.cfg m, exec_dec m s, fun hp k hk => ?orWrap, fun hp k hk => ?addWrap, decRecord_reject⟩
  case orWrap =>
    rw [word_decRecord _ _ (accepts_of_total hframe (.inr (.inl hp))) k hk, hp, placeWord,
      assemble_of_listed _ _ (by decide), placeBytes_eq_getD m k hlen hk, accumulateAll_orWrap_eight]
    simp [List.range_succ, Nat.add_comm _ (8 * k), Nat.add_assoc]
  case addWrap =>
    rw [word_decRecord _ _ (accepts_of_total hframe (.inr (.inr hp))) k hk, hp, placeWord,
      assemble_of_listed _ _ (by decide), placeBytes_eq_getD m k hlen hk, accumulateAll_addWrap_eight]
    simp [Finset.sum_range_succ, Nat.add_comm _ (8 * k), Nat.add_assoc]

/-! ## The spellings of a token (R63, R138, R140) -/

/-- The signs and the `x` of `0x` are digits under no spelling. -/
theorem hexDigit_sign_or_x (x : TextSyntax) :
    hexDigit x '+' = none ∧ hexDigit x '-' = none ∧ hexDigit x 'x' = none ∧ hexDigit x 'X' = none := by
  simp [hexDigit]

theorem hexDigit_zero (x : TextSyntax) : hexDigit x '0' = some 0 := by simp [hexDigit]

/-- The number of a run of digits after the digits of `acc`, the first digit the most significant. -/
def digitsNumber (x : TextSyntax) (acc : Nat) (digits : List Char) : Nat :=
  digits.foldl (fun n c => 16 * n + (hexDigit x c).getD 0) acc

/-- A run of digits reads as its number. -/
theorem hexValue_of_digits (x : TextSyntax) (digits : List Char) (h : ∀ c ∈ digits, (hexDigit x c).isSome = true) (acc : Nat) :
    hexValue x acc digits = some (digitsNumber x acc digits) := by
  induction digits generalizing acc with
  | nil => rfl
  | cons c cs ih =>
    obtain ⟨hc, hcs⟩ := List.forall_mem_cons.1 h
    obtain ⟨d, hd⟩ := Option.isSome_iff_exists.1 hc
    simp only [hexValue, digitsNumber, hd, List.foldl_cons, Option.getD_some]
    exact ih hcs _

/-- A run with a character that is no digit has no value. -/
theorem hexValue_of_bad_digit (x : TextSyntax) (cs : List Char) (h : ∃ c ∈ cs, hexDigit x c = none) (acc : Nat) :
    hexValue x acc cs = none := by
  induction cs generalizing acc with
  | nil => simp at h
  | cons c cs ih =>
    cases hd : hexDigit x c with
    | none => simp only [hexValue, hd]
    | some d =>
      simp only [hexValue, hd]
      exact ih (by simpa [hd] using h) _

/-- What `dropSign` takes off is at most one sign. -/
theorem dropSign_split (t : List Char) :
    ∃ sign, (sign = [] ∨ sign = ['+'] ∨ sign = ['-']) ∧ t = sign ++ dropSign t := by
  by_cases h : t.head? = some '+' ∨ t.head? = some '-'
  · rw [dropSign, if_pos h]
    cases t with
    | nil => simp at h
    | cons c cs => exact ⟨[c], .inr (by simpa using h), rfl⟩
  · exact ⟨[], .inl rfl, by rw [dropSign, if_neg h, List.nil_append]⟩

/-- What `dropPrefix` takes off is nothing or an allowed `0x`. -/
theorem dropPrefix_split (x : TextSyntax) (t : List Char) : ∃ pre, x.AllowsPrefix pre ∧ t = pre ++ dropPrefix x t := by
  by_cases h : x.prefix0x = true ∧ (t.take 2 = ['0', 'x'] ∨ t.take 2 = ['0', 'X'])
  · rw [dropPrefix, if_pos h]
    exact ⟨t.take 2, .inr h, (List.take_append_drop 2 t).symm⟩
  · exact ⟨[], .inl rfl, by rw [dropPrefix, if_neg h, List.nil_append]⟩

/-- A token is at most one sign, what `dropPrefix` may take off, and what the reader takes for its digits. -/
theorem token_split (x : TextSyntax) (t : List Char) :
    ∃ sign pre, (sign = [] ∨ sign = ['+'] ∨ sign = ['-']) ∧ x.AllowsPrefix pre ∧
      t = sign ++ pre ++ dropPrefix x (dropSign t) := by
  obtain ⟨sign, hsign, hrest⟩ := dropSign_split t
  obtain ⟨pre, hpre, hbody⟩ := dropPrefix_split x (dropSign t)
  exact ⟨sign, pre, hsign, hpre, by rw [List.append_assoc, ← hbody, ← hrest]⟩

/-- A token without digits, or with another character among them, is bad (R140). -/
theorem readToken_of_bad_digits {x : TextSyntax} {t : List Char}
    (h : dropPrefix x (dropSign t) = [] ∨ ∃ c ∈ dropPrefix x (dropSign t), hexDigit x c = none) : readToken x t = none := by
  unfold readToken
  split
  next => rfl
  next c cs hbody =>
    rw [hbody] at h
    rw [hexValue_of_bad_digit x (c :: cs) (h.resolve_left (List.cons_ne_nil c cs))]

/-- Unsigned digits whose number fits a word read as it (R63). -/
theorem readToken_of_digits {x : TextSyntax} {t digits : List Char} (hsign : dropSign t = t) (hbody : dropPrefix x t = digits)
    (hne : digits ≠ []) (hdigits : ∀ c ∈ digits, (hexDigit x c).isSome = true)
    (hfits : digitsNumber x 0 digits < 2 ^ 32) :
    readToken x t = some (BitVec.ofNat 32 (digitsNumber x 0 digits)) := by
  cases digits with
  | nil => exact absurd rfl hne
  | cons c cs =>
    simp only [readToken, hsign, hbody, hexValue_of_digits x (c :: cs) hdigits]
    rw [if_pos ⟨trivial, hfits⟩]

/-- A token that begins with a digit has no sign. -/
theorem dropSign_of_head_digit {x : TextSyntax} {c : Char} (cs : List Char) (h : (hexDigit x c).isSome = true) :
    dropSign (c :: cs) = c :: cs := by
  obtain ⟨hplus, hminus, -, -⟩ := hexDigit_sign_or_x x
  have hhead : ¬((c :: cs).head? = some '+' ∨ (c :: cs).head? = some '-') := by
    rintro (hc | hc) <;> simp_all
  rw [dropSign, if_neg hhead]

/-- A run of digits does not begin with `0x`, for `x` is no digit. -/
theorem dropPrefix_of_digits {x : TextSyntax} {digits : List Char} (h : ∀ c ∈ digits, (hexDigit x c).isSome = true) :
    dropPrefix x digits = digits := by
  obtain ⟨-, -, hx, hX⟩ := hexDigit_sign_or_x x
  refine if_neg ?_
  rintro ⟨-, htake | htake⟩
  · have := h 'x' (List.mem_of_mem_take (i := 2) (by simp [htake]))
    simp [hx] at this
  · have := h 'X' (List.mem_of_mem_take (i := 2) (by simp [htake]))
    simp [hX] at this

/-- Digits, and digits behind an allowed `0x`, have no sign, and without the `0x` they are the digits. -/
theorem dropSign_dropPrefix_of_digits {x : TextSyntax} {pre digits : List Char} (hpre : x.AllowsPrefix pre)
    (hne : digits ≠ []) (h : ∀ c ∈ digits, (hexDigit x c).isSome = true) :
    dropSign (pre ++ digits) = pre ++ digits ∧ dropPrefix x (pre ++ digits) = digits := by
  have hzero : (hexDigit x '0').isSome = true := by simp [hexDigit_zero]
  rcases hpre with rfl | ⟨hallowed, rfl | rfl⟩
  · cases digits with
    | nil => exact absurd rfl hne
    | cons c cs => exact ⟨dropSign_of_head_digit cs (h c List.mem_cons_self), dropPrefix_of_digits h⟩
  · exact ⟨dropSign_of_head_digit _ hzero, if_pos ⟨hallowed, .inl rfl⟩⟩
  · exact ⟨dropSign_of_head_digit _ hzero, if_pos ⟨hallowed, .inr rfl⟩⟩

/-- Digits, and digits behind an allowed `0x`, read as their number if it fits a word (R63). -/
theorem readToken_prefixed_digits {x : TextSyntax} {pre digits : List Char} (hpre : x.AllowsPrefix pre) (hne : digits ≠ [])
    (h : ∀ c ∈ digits, (hexDigit x c).isSome = true)
    (hfits : digitsNumber x 0 digits < 2 ^ 32) :
    readToken x (pre ++ digits) = some (BitVec.ofNat 32 (digitsNumber x 0 digits)) := by
  obtain ⟨hsign, hbody⟩ := dropSign_dropPrefix_of_digits hpre hne h
  exact readToken_of_digits hsign hbody hne h hfits

/-- A token of no spelling is bad: what the reader takes for its digits is one way to split it. -/
theorem readToken_of_no_spelling {x : TextSyntax} {token : List Char}
    (h : ∀ sign pre digits : List Char, sign = [] ∨ sign = ['+'] ∨ sign = ['-'] → x.AllowsPrefix pre →
      token = sign ++ pre ++ digits → digits = [] ∨ ∃ c ∈ digits, hexDigit x c = none) : readToken x token = none := by
  obtain ⟨sign, pre, hsign, hpre, htoken⟩ := token_split x token
  exact readToken_of_bad_digits (h sign pre _ hsign hpre htoken)

/-- What stands before the digits of a token holds `0`, `x` and signs alone. -/
theorem not_mem_sign_append_pre {x : TextSyntax} {sign pre : List Char} {c : Char} (hsign : sign = [] ∨ sign = ['+'] ∨ sign = ['-'])
    (hpre : x.AllowsPrefix pre) (h0 : c ≠ '0') (hx : c ≠ 'x') (hX : c ≠ 'X') (hplus : c ≠ '+') (hminus : c ≠ '-') :
    c ∉ sign ++ pre := by
  rcases hsign with rfl | rfl | rfl <;> rcases hpre with rfl | ⟨-, rfl | rfl⟩ <;> simp [h0, hx, hX, hplus, hminus]

/-- Settles O49: a run of digits, a character of no spelling, and a token of no spelling. The second is a case of the third. -/
theorem hexadecimalTokensAreRead : Obligations.HexadecimalTokensAreRead := by
  refine ⟨fun x pre digits hpre hne h hfits => readToken_prefixed_digits hpre hne h hfits,
    fun x token c hmem hc hx hX hplus hminus => ?_, fun x token h => readToken_of_no_spelling h⟩
  have hzero : c ≠ '0' := by
    rintro rfl
    simp [hexDigit_zero] at hc
  refine readToken_of_no_spelling fun sign pre digits hsign hpre htoken => .inr ⟨c, ?_, hc⟩
  rw [htoken] at hmem
  exact (List.mem_append.1 hmem).resolve_left (not_mem_sign_append_pre hsign hpre hzero hx hX hplus hminus)

/-! ## The lines of a batch and the arguments of a launch (R64, R138, R140) -/

/-- A line gives a record if its first six tokens are good, and then their words are the record's. -/
theorem lineRecord_eq_some_iff (l : TokenLine) (r : Record) :
    lineRecord l = some r ↔ ∃ more, l = (wordList r).map some ++ more := by
  constructor
  · intro h
    unfold lineRecord at h
    split at h
    next a b c d e f more => cases h; exact ⟨more, rfl⟩
    next => cases h
  · rintro ⟨more, rfl⟩
    rfl

/-- A short line, and one with a bad token among its first six, gives no record (R140). -/
theorem lineRecord_of_bad {l : TokenLine} (h : l.length < 6 ∨ ∃ j, j < 6 ∧ l[j]? = some none) : lineRecord l = none := by
  rw [Option.eq_none_iff_forall_ne_some]
  intro r hr
  obtain ⟨more, rfl⟩ := (lineRecord_eq_some_iff l r).1 hr
  rcases h with hshort | ⟨j, hj, hbad⟩
  · simp [wordList] at hshort
    omega
  · rw [List.getElem?_append_left (by simpa [wordList] using hj)] at hbad
    simp at hbad

theorem lineRecord_words (r : Record) : lineRecord ((wordList r).map some) = some r := rfl

/-- Good lines give their records, whatever follows them. -/
theorem batchRecords_good_append (good : List Record) (rest : List TokenLine) :
    batchRecords (good.map (fun r => (wordList r).map some) ++ rest) = good ++ batchRecords rest := by
  induction good with
  | nil => rfl
  | cons r rs ih => simp only [List.map_cons, List.cons_append, batchRecords, lineRecord_words, ih]

/-- A line that gives no record ends the batch (R138). -/
theorem batchRecords_bad {l : TokenLine} (rest : List TokenLine) (h : lineRecord l = none) : batchRecords (l :: rest) = [] := by
  simp only [batchRecords, h]

/-- The direct mode refuses arguments that give no record. -/
theorem launch_direct_bad (ch : Channel) (s : State) (k : ProtocolConsts) {args : List (List Char)}
    (h : lineRecord (args.map (readToken k.text)) = none) : Session.launch ch s k (.direct args) = .error .badArguments := by
  simp only [Session.launch, Launch.flow, h]

/-- A launch on a free channel starts the session of its flow (R143). -/
theorem launch_on_free_channel {ch : Channel} (s : State) {k : ProtocolConsts} {l : Launch} {f : Flow}
    (hflow : l.flow k.text = .ok f) (hfree : ch.owned = false) :
    Session.launch ch s k l = .ok (Session.start s k f ch) := by
  simp [Session.launch, hflow, hfree]

/-- Exactly six good arguments choose the flow of their record (R64). -/
theorem flow_direct_good {x : TextSyntax} {args : List (List Char)} {r : Record}
    (h : args.map (readToken x) = (wordList r).map some) : (Launch.direct args).flow x = .ok (.single r) := by
  have hlen : args.length = 6 := by simpa [wordList] using congrArg List.length h
  simp [Launch.flow, h, lineRecord_words, hlen]

/-- Settles O48: the lines of a batch, its requests, the requests of a single record, and the launches of a text and of
arguments. -/
theorem badInputEndsABatchAndStopsADirectLaunch : Obligations.BadInputEndsABatchAndStopsADirectLaunch := by
  refine ⟨fun good => ?allGood, fun good bad rest hbad => ?oneBad, fun k rs => ?batch, fun k r => rfl,
    fun ch s k text hfree => ⟨_, launch_on_free_channel s rfl hfree, rfl⟩, fun ch s k args hbad => ?badArgs,
    fun ch s k args r hgood hfree =>
      ⟨_, launch_on_free_channel s (flow_direct_good hgood) hfree, rfl, rfl, rfl, rfl, rfl⟩⟩
  case allGood => simpa [batchRecords] using batchRecords_good_append good []
  case oneBad => rw [batchRecords_good_append, batchRecords_bad rest (lineRecord_of_bad hbad), List.append_nil]
  case batch => simp [Flow.requests, Function.comp_def]
  case badArgs =>
    refine launch_direct_bad ch s k (lineRecord_of_bad (hbad.imp (by simp) ?_))
    rintro ⟨j, token, hj, hget, hread⟩
    exact ⟨j, hj, by simp [hget, hread]⟩

/-! ## Records written as text (R63, R138) -/

theorem splitAtChars_ne_nil (sep : Char → Bool) (cs : List Char) : splitAtChars sep cs ≠ [] := by
  cases cs with
  | nil => exact List.cons_ne_nil _ _
  | cons c cs =>
    rw [splitAtChars]
    split
    · exact List.cons_ne_nil _ _
    · split_ifs <;> exact List.cons_ne_nil _ _

/-- A separator at the head ends an empty part. -/
theorem splitAtChars_sep {sep : Char → Bool} {c : Char} (cs : List Char) (h : sep c = true) :
    splitAtChars sep (c :: cs) = [] :: splitAtChars sep cs := by
  obtain ⟨part, parts, hsplit⟩ := List.exists_cons_of_ne_nil (splitAtChars_ne_nil sep cs)
  simp only [splitAtChars, hsplit, h, if_true]

/-- Another character at the head belongs to the first part. -/
theorem splitAtChars_of_not_sep {sep : Char → Bool} {c : Char} {cs part : List Char} {parts : List (List Char)}
    (h : sep c = false) (hsplit : splitAtChars sep cs = part :: parts) :
    splitAtChars sep (c :: cs) = (c :: part) :: parts := by
  simp [splitAtChars, hsplit, h]

/-- A run without separators joins the first part of what follows it. -/
theorem splitAtChars_append {sep : Char → Bool} {run cs part : List Char} {parts : List (List Char)}
    (h : ∀ c ∈ run, sep c = false) (hsplit : splitAtChars sep cs = part :: parts) :
    splitAtChars sep (run ++ cs) = (run ++ part) :: parts := by
  induction run with
  | nil => exact hsplit
  | cons c run ih =>
    obtain ⟨hc, hrun⟩ := List.forall_mem_cons.1 h
    exact splitAtChars_of_not_sep hc (ih hrun)

/-- A run without separators before a separator is a part. -/
theorem splitAtChars_append_sep {sep : Char → Bool} {run : List Char} {c : Char} (cs : List Char)
    (h : ∀ a ∈ run, sep a = false) (hc : sep c = true) : splitAtChars sep (run ++ c :: cs) = run :: splitAtChars sep cs := by
  rw [splitAtChars_append h (splitAtChars_sep cs hc), List.append_nil]

/-- A run without separators is one part. -/
theorem splitAtChars_run {sep : Char → Bool} {run : List Char} (h : ∀ a ∈ run, sep a = false) :
    splitAtChars sep run = [run] := by
  have hsplit := splitAtChars_append (cs := []) h rfl
  rwa [List.append_nil] at hsplit

/-- No digit is a space or a line feed. -/
theorem digitChar_no_separator :
    ∀ upper : Bool, ∀ n < 16, isSpace (digitChar upper n) = false ∧ isLineEnd (digitChar upper n) = false := by
  decide

theorem digitChar_toNat (upper : Bool) {n : Nat} (hn : n < 16) :
    (digitChar upper n).toNat = if n < 10 then 48 + n else if upper then 55 + n else 87 + n := by
  revert upper n
  decide

/-- A digit written in a letter case that the reader takes reads as its number. -/
theorem hexDigit_digitChar {x : TextSyntax} {upper : Bool} (h : (if upper then x.upperCase else x.lowerCase) = true) {n : Nat}
    (hn : n < 16) : hexDigit x (digitChar upper n) = some n := by
  rw [hexDigit, digitChar_toNat upper hn]
  by_cases hdec : n < 10
  · rw [if_pos hdec, if_pos (by omega), Nat.add_sub_cancel_left]
  · cases upper with
    | false =>
      have hlower : x.lowerCase = true := h
      rw [if_neg hdec, if_neg Bool.false_ne_true, if_neg (by omega), if_pos ⟨hlower, by omega⟩, Nat.add_sub_cancel_left]
    | true =>
      have hupper : x.upperCase = true := h
      rw [if_neg hdec, if_pos rfl, if_neg (by omega), if_neg (by omega), if_pos ⟨hupper, by omega⟩, Nat.add_sub_cancel_left]

/-- The digits of a token are the nibbles of the word, the most significant first. -/
theorem wordToken_eq_nibbles (upper : Bool) (w : Word) :
    wordToken upper w = [7, 6, 5, 4, 3, 2, 1, 0].map fun i => digitChar upper (nib w i).toNat := rfl

theorem wordToken_ne_nil (upper : Bool) (w : Word) : wordToken upper w ≠ [] := by simp [wordToken]

theorem mem_wordToken {upper : Bool} {w : Word} {c : Char} (h : c ∈ wordToken upper w) : ∃ n < 16, c = digitChar upper n := by
  rw [wordToken_eq_nibbles] at h
  obtain ⟨i, -, rfl⟩ := List.mem_map.1 h
  exact ⟨_, (nib w i).isLt, rfl⟩

theorem isSpace_of_mem_wordToken {upper : Bool} {w : Word} {c : Char} (h : c ∈ wordToken upper w) : isSpace c = false := by
  obtain ⟨n, hn, rfl⟩ := mem_wordToken h
  exact (digitChar_no_separator upper n hn).1

theorem isLineEnd_of_mem_wordToken {upper : Bool} {w : Word} {c : Char} (h : c ∈ wordToken upper w) : isLineEnd c = false := by
  obtain ⟨n, hn, rfl⟩ := mem_wordToken h
  exact (digitChar_no_separator upper n hn).2

section
variable {x : TextSyntax} {upper : Bool} (hcase : (if upper then x.upperCase else x.lowerCase) = true)
include hcase

/-- The number of a word's token is the word's. -/
theorem wordToken_value (w : Word) :
    digitsNumber x 0 (wordToken upper w) = w.toNat := by
  have hdigit : ∀ i, (hexDigit x (digitChar upper (nib w i).toNat)).getD 0 = (nib w i).toNat := fun i => by
    rw [hexDigit_digitChar hcase (nib w i).isLt, Option.getD_some]
  rw [wordToken_eq_nibbles, word_eq_nibble_sum]
  simp only [digitsNumber, List.map_cons, List.map_nil, List.foldl_cons, List.foldl_nil, hdigit]
  omega

/-- A word's token reads as the word (R63). -/
theorem readToken_wordToken (w : Word) : readToken x (wordToken upper w) = some w := by
  have hdigits : ∀ c ∈ wordToken upper w, (hexDigit x c).isSome = true := by
    intro c hc
    obtain ⟨n, hn, rfl⟩ := mem_wordToken hc
    rw [hexDigit_digitChar hcase hn, Option.isSome_some]
  have hread := readToken_prefixed_digits (pre := []) (.inl rfl) (wordToken_ne_nil upper w) hdigits
    (by rw [wordToken_value hcase]; exact w.isLt)
  rwa [wordToken_value hcase, BitVec.ofNat_toNat, BitVec.setWidth_eq] at hread

end

/-- A record's line without its line feed. -/
def recordText (upper : Bool) (r : Record) : List Char :=
  wordToken upper r.w0 ++ ' ' :: (wordToken upper r.w1 ++ ' ' :: (wordToken upper r.w2 ++ ' ' :: (wordToken upper r.w3 ++
    ' ' :: (wordToken upper r.w4 ++ ' ' :: wordToken upper r.w5))))

theorem recordLine_eq_recordText (upper : Bool) (r : Record) : recordLine upper r = recordText upper r ++ ['\n'] := by
  simp [recordLine, recordText]

/-- The tokens of a record's line are those of its words, in order. -/
theorem lineTokens_recordText (upper : Bool) (r : Record) :
    lineTokens (recordText upper r) = (wordList r).map (wordToken upper) := by
  have hword : ∀ (w : Word) (cs : List Char),
      splitAtChars isSpace (wordToken upper w ++ ' ' :: cs) = wordToken upper w :: splitAtChars isSpace cs :=
    fun w cs => splitAtChars_append_sep cs (fun _ => isSpace_of_mem_wordToken) rfl
  have hlast : splitAtChars isSpace (wordToken upper r.w5) = [wordToken upper r.w5] :=
    splitAtChars_run fun _ => isSpace_of_mem_wordToken
  rw [lineTokens, recordText, hword, hword, hword, hword, hword, hlast]
  rfl

/-- A record's line is one line. -/
theorem recordText_no_lineEnd (upper : Bool) (r : Record) : ∀ c ∈ recordText upper r, isLineEnd c = false := by
  have hspace : isLineEnd ' ' = false := rfl
  have hword : ∀ w : Word, ∀ c ∈ wordToken upper w, isLineEnd c = false := fun _ _ => isLineEnd_of_mem_wordToken
  simp only [recordText, List.forall_mem_append, List.forall_mem_cons]
  exact ⟨hword _, hspace, hword _, hspace, hword _, hspace, hword _, hspace, hword _, hspace, hword _⟩

/-- A text that begins with a line feed begins with a blank line, which ends the batch (log 16). -/
theorem textRecords_blank_line (x : TextSyntax) (tail : List Char) : textRecords x ('\n' :: tail) = [] := by
  rw [textRecords, textLines, splitAtChars_sep tail rfl]
  rfl

section
variable {x : TextSyntax} {upper : Bool} (hcase : (if upper then x.upperCase else x.lowerCase) = true)
include hcase

/-- A record's line reads as its words. -/
theorem readLine_recordText (r : Record) : readLine x (recordText upper r) = (wordList r).map some := by
  rw [readLine, lineTokens_recordText, List.map_map]
  exact List.map_congr_left fun w _ => readToken_wordToken hcase w

/-- A record's line gives the record, and the text goes on after it. -/
theorem textRecords_recordLine_append (r : Record) (rest : List Char) :
    textRecords x (recordLine upper r ++ rest) = r :: textRecords x rest := by
  rw [recordLine_eq_recordText, List.append_assoc, List.singleton_append, textRecords, textLines,
    splitAtChars_append_sep rest (recordText_no_lineEnd upper r) rfl, List.map_cons, readLine_recordText hcase]
  rfl

/-- The lines of records give the records, whatever follows them. -/
theorem textRecords_recordLines_append (rs : List Record) (rest : List Char) :
    textRecords x (rs.flatMap (recordLine upper) ++ rest) = rs ++ textRecords x rest := by
  induction rs with
  | nil => rfl
  | cons r rs ih =>
    rw [List.flatMap_cons, List.append_assoc, textRecords_recordLine_append hcase, ih, List.cons_append]

end

/-- Settles O50: after the records' lines comes the end of the text, which gives no record, or a blank line. -/
theorem batchTextOfRecordsReadsBack : Obligations.BatchTextOfRecordsReadsBack := by
  refine fun x upper rs hcase => ⟨?_, fun tail => ?_⟩
  · have hread := textRecords_recordLines_append hcase rs []
    rw [List.append_nil] at hread
    exact hread.trans (List.append_nil rs)
  · rw [textRecords_recordLines_append hcase, textRecords_blank_line, List.append_nil]

end Sys2Proof.Machine

/-! SUPPORT. The statements of 40_encode.md: the frame `ENC` writes, and the byte-at-a-time encoder. The general lemmas come
first in each part; each statement is assembled from them. -/

namespace Sys2Proof.Machine

/-! ## The frame (R71, R107) -/

/-- Settles O1: the message is `encFrame`, read off byte by byte. -/
theorem encWritesTheFrameOfTheRecord : Obligations.EncWritesTheFrameOfTheRecord := by
  refine fun r s => ⟨encFrame s.cfg r, exec_enc r s, encFrame_length s.cfg r, encFrame_start s.cfg r,
    encFrame_stop s.cfg r, fun k hk t ht => ?_⟩
  rw [encFrame_payload s.cfg r k t hk ht, nibByte_eq_shift_and]

/-! ## Several steps -/

theorem runSteps_succ_of_next {s t : State} (n : Nat) (h : step s = .next t) : runSteps (n + 1) s = runSteps n t := by
  simp only [runSteps, h]

theorem runSteps_succ_of_refused {s : State} {e : Refusal} (n : Nat) (h : step s = .refused e) :
    runSteps (n + 1) s = .refused e := by
  simp only [runSteps, h]

/-! ## An emission that is not disturbed (R78) -/

/-- `s` with the first `p` bytes of the frame of the record on `REC_IN` emitted, `REC_IN` not changed, and `es` to come. -/
def State.midEmission (s : State) (p : Nat) (es : List Event) : State :=
  { s with encSer := { pos := p, changed := false, emitted := (encFrame s.cfg s.recIn).take p }, inputs := es }

/-- With nothing emitted the encoder is at a message boundary (R24). -/
theorem State.midEmission_zero {s : State} {es : List Event} (hser : s.encSer = .cleared) (hin : s.inputs = es) :
    s.midEmission 0 es = s := by
  subst hin
  rw [State.midEmission, List.take_zero, ← SerialEncoder.cleared, ← hser]

/-- The bytes of the frame up to `p`, and the byte at `p` by `enc_byte`, are the bytes up to `p + 1` (R78). -/
theorem take_encFrame_append_encByte (c : Config) (r : Record) {p : Nat} (hp : p < 50) :
    (encFrame c r).take p ++ [encByte c r p] = (encFrame c r).take (p + 1) := by
  rw [List.take_add_one, encFrame_getElem?_eq_encByte c r p hp, Option.toList_some]

/-- A step in the middle of an emission does the oldest thing asked. -/
theorem step_midEmission_eq_runEvent (s : State) (p : Nat) (e : Event) (es : List Event) :
    step (s.midEmission p (e :: es)) = runEvent e (s.midEmission p es) :=
  step_event (s.midEmission p (e :: es)) e es rfl

/-- A byte step before the last is one position on. -/
theorem step_midEmission (s : State) {p : Nat} (hp : p < 49) (es : List Event) :
    step (s.midEmission p (.emitByte :: es)) = .next (s.midEmission (p + 1) es) := by
  have hbytes := take_encFrame_append_encByte s.cfg s.recIn (p := p) (by omega)
  have hemit : emitOf (s.midEmission p es) = s.midEmission (p + 1) es := by
    rw [emitOf_of_ne_last (s.midEmission p es) (Nat.ne_of_lt hp)]
    simp only [State.midEmission, hbytes]
  rw [step_midEmission_eq_runEvent, runEvent, emitByte_of_unchanged (s.midEmission p es) rfl, hemit]

/-- The last byte step leaves the whole frame on `MSG_OUT`, and the encoder at a message boundary (log 10). -/
theorem step_midEmission_last (s : State) (es : List Event) :
    step (s.midEmission 49 (.emitByte :: es)) =
      .next { s with msgOut := some (encFrame s.cfg s.recIn), encSer := .cleared, inputs := es } := by
  have hbytes : (encFrame s.cfg s.recIn).take 49 ++ [s.cfg.stop] = encFrame s.cfg s.recIn := rfl
  rw [step_midEmission_eq_runEvent, runEvent, emitByte_of_unchanged (s.midEmission 49 es) rfl,
    emitOf_last (s.midEmission 49 es) rfl]
  simp only [State.midEmission, hbytes]

/-- The byte steps that are left of an emission, one or more of them, complete it. -/
theorem runSteps_midEmission (s : State) (rest : List Event) (n : Nat) :
    ∀ p, p + (n + 1) = 50 →
      runSteps (n + 1) (s.midEmission p (List.replicate (n + 1) .emitByte ++ rest)) =
        .next { s with msgOut := some (encFrame s.cfg s.recIn), encSer := .cleared, inputs := rest } := by
  induction n with
  | zero =>
    intro p hp
    obtain rfl : p = 49 := by omega
    exact runSteps_succ_of_next 0 (step_midEmission_last s rest)
  | succ n ih =>
    intro p hp
    rw [List.replicate_succ, List.cons_append, runSteps_succ_of_next (n + 1) (step_midEmission s (by omega) _)]
    exact ih (p + 1) (by omega)

/-- Settles O22: at a message boundary all fifty bytes of the emission are left. -/
theorem fiftyByteStepsEmitTheFrame : Obligations.FiftyByteStepsEmitTheFrame := by
  intro s rest hin hser
  have hrun := runSteps_midEmission s rest 49 0 rfl
  rw [State.midEmission_zero hser hin, ← hser] at hrun
  exact ⟨encFrame s.cfg s.recIn, exec_enc s.recIn s, hrun⟩

/-! ## A record changed in the middle of an emission (U12) -/

@[simp] theorem emitOf_recIn (s : State) : (emitOf s).recIn = s.recIn := by
  by_cases h : s.encSer.pos = 49
  · rw [emitOf_last s h]
  · rw [emitOf_of_ne_last s h]

/-- After the watch in the middle of an emission, a change of `REC_IN` made now or before stands noted. -/
theorem State.watchRecord_notes {s : State} {before : Record} (hpos : s.encSer.pos ≠ 0)
    (h : s.encSer.changed = true ∨ s.recIn ≠ before) : (s.watchRecord before).encSer.changed = true := by
  rw [State.watchRecord_eq_or]
  rcases h with h | h <;> simp [h, hpos]

/-- The note of a change of `REC_IN`, and the position, outlast every act of the environment but a reset. -/
theorem runEvent_keeps_note {e : Event} {s t : State} (h : runEvent e s = .next t) (hpos : s.encSer.pos ≠ 0)
    (hnote : s.encSer.changed = true ∨ t.recIn ≠ s.recIn) :
    (t.encSer.changed = true ∧ t.encSer.pos = s.encSer.pos) ∨ (t.encSer = .cleared ∧ e = .reset) := by
  have hsame (hser : t.encSer = s.encSer) (hrec : t.recIn = s.recIn) :
      t.encSer.changed = true ∧ t.encSer.pos = s.encSer.pos := by
    rw [hser]
    exact ⟨hnote.resolve_right (not_not_intro hrec), rfl⟩
  have hwatch {u : State} (ht : t = u.watchRecord s.recIn) (hu : u.encSer = s.encSer) :
      t.encSer.changed = true ∧ t.encSer.pos = s.encSer.pos := by
    subst ht
    rw [State.watchRecord_recIn, ← hu] at hnote
    rw [← hu] at hpos ⊢
    exact ⟨State.watchRecord_notes hpos hnote, State.watchRecord_encSer_pos u s.recIn⟩
  rcases runEvent_next_cases h with ⟨r, -, ht⟩ | ⟨m, -, rfl⟩ | ⟨r, -, ht⟩ | ⟨-, hch, rfl⟩ | ⟨b, -, rfl⟩ | ⟨-, rfl⟩ |
    ⟨-, -, rfl⟩ | ⟨-, -, rfl⟩ | ⟨he, rfl⟩
  · exact .inl (hwatch ht rfl)
  · exact .inl (hsame rfl rfl)
  · exact .inl (hwatch ht rfl)
  · rw [hch, emitOf_recIn] at hnote
    exact (hnote.elim Bool.false_ne_true (· rfl)).elim
  · exact .inl (hsame rfl rfl)
  · exact .inl (hsame rfl rfl)
  · exact .inl (hsame rfl rfl)
  · exact .inl (hsame rfl rfl)
  · exact .inr ⟨rfl, he⟩

/-- A byte step is refused while a change of `REC_IN` stands noted (U12). -/
theorem step_emitByte_of_changed {s : State} {rest : List Event} (hin : s.inputs = .emitByte :: rest)
    (h : s.encSer.changed = true) : step s = .refused .recordChanged := by
  rw [step_event s _ rest hin, runEvent, emitByte, State.setInputs_encSer, if_pos h]

/-- A step that presents a record, with the watch it is under. -/
theorem step_presentRecord {s : State} {r : Record} {rest : List Event} (hin : s.inputs = .presentRecord r :: rest) :
    step s = .next (((s.setInputs rest).presentRecord r).watchRecord s.recIn) :=
  step_event s _ rest hin

/-- A record presented in the middle of an emission and then put back leaves the next byte step refused. -/
theorem runSteps_of_record_put_back {s : State} {r : Record} {rest : List Event}
    (hin : s.inputs = .presentRecord r :: .presentRecord s.recIn :: .emitByte :: rest) (hpos : s.encSer.pos ≠ 0)
    (hr : r ≠ s.recIn) : runSteps 3 s = .refused .recordChanged := by
  have hchanged := State.watchRecord_notes (s := (s.setInputs (.presentRecord s.recIn :: .emitByte :: rest)).presentRecord r)
    hpos (.inr hr)
  rw [runSteps_succ_of_next 2 (step_presentRecord hin),
    runSteps_succ_of_next 1 (step_presentRecord (State.watchRecord_inputs _ _))]
  refine runSteps_succ_of_refused 0 (step_emitByte_of_changed (State.watchRecord_inputs _ _)
    (State.watchRecord_notes ?_ (.inl hchanged)))
  simpa using hpos

/-- Settles O23: the note kept by every step, a byte step under it, and a record put back. -/
theorem recordChangedInMidEmissionIsNeverEmitted : Obligations.RecordChangedInMidEmissionIsNeverEmitted := by
  refine ⟨fun s t h hpos hnote => ?_, fun s rest => step_emitByte_of_changed,
    fun s r rest => runSteps_of_record_put_back⟩
  cases hin : s.inputs with
  | nil =>
    rw [step_idle s hin] at h
    cases h
    exact .inl ⟨hnote.resolve_right (not_not_intro rfl), rfl⟩
  | cons e rest =>
    rw [step_event s e rest hin] at h
    refine (runEvent_keeps_note h hpos hnote).imp_right ?_
    rintro ⟨hser, rfl⟩
    exact ⟨hser, rest, rfl⟩

end Sys2Proof.Machine

/-! SUPPORT. The statements of 41_decode.md: what `DEC` answers, and the byte-at-a-time decoder. The general lemmas come first
in each part; each statement is assembled from them. -/

namespace Sys2Proof.Machine

/-! ## The answer of `DEC` (R87, R89, R92) -/

/-- Settles O6: `decRecord` is a total function, and `exec_dec` names the two ports. -/
theorem decAnswersEveryMessage : Obligations.DecAnswersEveryMessage :=
  fun m s => ⟨decRecord s.cfg m, exec_dec m s⟩

/-- A message that fails one of the three tests of R86 is answered by `ZERO6` (R87). -/
theorem decRecord_of_malformed {c : Config} {m : Message}
    (h : ¬ (50 ≤ m.length ∧ m[0]? = some c.start ∧ m[49]? = some c.stop)) : decRecord c m = zero6 :=
  decRecord_of_not_frameOk (Bool.eq_false_iff.2 (h ∘ (frameOk_iff c m).1))

/-- Under `mask`, or with payload bytes at most `0x0F`, a word place is read by its fields (R58, R61). -/
theorem placeWord_eq_fieldWord {p : HighNibblePolicy} {m : Message} (hm : 50 ≤ m.length)
    (hp : p = .mask ∨ ∀ j b, 1 ≤ j → j ≤ 48 → m[j]? = some b → b ≤ 0x0F#8) {k : Nat} (hk : k < 6) :
    placeWord p m k = fieldWord m k := by
  rw [fieldWord_eq_placeWord m k hm hk]
  rcases hp with rfl | hbytes
  · rfl
  · have hplace := placeBytes_nibbles m hm hbytes k hk
    rw [placeWord, placeWord, assemble_of_nibbles p _ hplace, assemble_of_nibbles .mask _ hplace]

/-- Settles O5: a malformed message, and the words of an accepted one, which are the fields of R61. -/
theorem decAssemblesTheRecord : Obligations.DecAssemblesTheRecord := by
  refine fun m s hp => ⟨decRecord s.cfg m, exec_dec m s, decRecord_of_malformed, fun hlen hstart hstop k hk => ?_⟩
  have haccepts : accepts s.cfg m = true := accepts_of_frameOk ((frameOk_iff _ _).2 ⟨hlen, hstart, hstop⟩) hp
  rw [word_decRecord _ _ haccepts k hk, placeWord_eq_fieldWord hlen hp hk, fieldWord_toNat]

/-! ## A frame and what stands around it (R91, R94, R95) -/

/-- A word place of a frame, with nothing behind the frame, holds the bytes of its word (R32). -/
theorem placeBytes_encFrame_alone (c : Config) (r : Record) {k : Nat} (hk : k < 6) :
    placeBytes (encFrame c r) k = wordBytes (word r k) := by
  rw [← placeBytes_encFrame c r [] k hk, List.append_nil]

/-- A frame is accepted, for its payload bytes are all nibbles. -/
theorem accepts_encFrame (c : Config) (r : Record) : accepts c (encFrame c r) = true := by
  refine accepts_of_places
    ((frameOk_iff _ _).2 ⟨(encFrame_length c r).ge, encFrame_start c r, encFrame_stop c r⟩) fun k hk => ?_
  rw [placeBytes_encFrame_alone c r hk]
  exact rejectsWord_of_nibbles _ _ (by simp [wordBytes])

/-- The frame of a record is answered by the record, under every policy (R105). -/
theorem decRecord_encFrame (c : Config) (r : Record) : decRecord c (encFrame c r) = r := by
  apply record_ext_word
  intro k hk
  rw [word_decRecord _ _ (accepts_encFrame c r) k hk, placeWord, placeBytes_encFrame_alone c r hk, assemble_wordBytes]

/-- The tests of R86 look at no byte past the fiftieth. -/
theorem frameOk_take (c : Config) (m : Message) : frameOk c (m.take 50) = frameOk c m := by
  rw [Bool.eq_iff_iff, frameOk_iff, frameOk_iff]
  simp

/-- The six word places end before byte 49 (R32). -/
theorem placeBytes_take (m : Message) {k : Nat} (hk : k < 6) : placeBytes (m.take 50) k = placeBytes m k := by
  rw [placeBytes, placeBytes, List.drop_take, List.take_take]
  congr 1
  simp only [nibsPerWord]
  omega

theorem rejectsPayload_take (p : HighNibblePolicy) (m : Message) :
    rejectsPayload p (m.take 50) = rejectsPayload p m := by
  rw [Bool.eq_iff_iff, rejectsPayload_iff, rejectsPayload_iff]
  exact exists_congr fun k => and_congr_right fun hk => by rw [placeBytes_take m hk]

/-- `DEC` reads the first 50 bytes alone (R91). -/
theorem decRecord_take (c : Config) (m : Message) : decRecord c (m.take 50) = decRecord c m := by
  simp [decRecord, accepts, frameOk_take, rejectsPayload_take, placeWord, placeBytes_take]

/-- Settles O9: the first 50 bytes decide; where they are a frame, its record; and the test of byte 49. -/
theorem decIgnoresBytesPastTheFrame : Obligations.DecIgnoresBytesPastTheFrame := by
  refine fun m s _ => ⟨⟨decRecord s.cfg m, ?first, exec_dec m s⟩, fun r t henc hout => ?frame, fun _ hstop => ?rejected⟩
  case first => rw [exec_dec, decRecord_take]
  case frame =>
    rw [exec_enc] at henc
    cases henc
    have hframe : encFrame s.cfg r = m.take 50 := Option.some.inj hout
    rw [exec_dec, ← decRecord_take, ← hframe, decRecord_encFrame]
  case rejected => rw [exec_dec, decRecord_of_malformed fun ⟨_, _, h49⟩ => hstop h49]

/-- No byte of a nibble is in the range of the markers (R108). -/
theorem nibByte_ne_of_marker (w : Word) (i : Nat) {marker : Byte} (h : 0xF0#8 ≤ marker) : nibByte w i ≠ marker := by
  rintro rfl
  have hnibble := (aboveNibble_eq_false_iff _).1 (aboveNibble_nibByte w i)
  exact absurd (BitVec.le_trans h hnibble) (by decide)

/-- Behind a stray byte, byte 49 is the last payload byte of the frame. -/
theorem stray_encFrame_getElem? (c : Config) (r : Record) (x : Byte) (tail : List Byte) :
    (x :: encFrame c r ++ tail)[49]? = some (nibByte r.w5 0) := rfl

/-- Settles O12: byte 49 is then a nibble, which is no legal `END`. -/
theorem decDoesNotSearchForAFrame : Obligations.DecDoesNotSearchForAFrame := by
  intro r x tail s t M hlegal henc hout
  rw [exec_enc] at henc
  cases henc
  obtain rfl : encFrame s.cfg r = M := Option.some.inj hout
  have hstop : 0xF0#8 ≤ s.cfg.stop := by
    simp only [Config.markersLegal, Bool.and_eq_true, decide_eq_true_eq] at hlegal
    exact hlegal.2
  rw [exec_dec, decRecord_of_malformed]
  rintro ⟨-, -, h49⟩
  rw [stray_encFrame_getElem?] at h49
  exact nibByte_ne_of_marker r.w5 0 hstop (Option.some.inj h49)

/-- Settles O19: the frame of `ZERO6` is accepted and read as it, and a malformed message is rejected. -/
theorem zeroRecordIsAmbiguous : Obligations.ZeroRecordIsAmbiguous := by
  intro s m hbad
  refine ⟨encFrame s.cfg zero6, exec_enc zero6 s, ?_, ?_⟩
  · rw [exec_dec, decRecord_encFrame]
  · rw [exec_dec, decRecord_of_malformed]
    rintro ⟨hlen, hstart, hstop⟩
    rcases hbad with h | h | h
    · omega
    · exact h hstart
    · exact h hstop

/-! ## The byte-at-a-time decoder (R97) -/

/-- The bytes seen are counted up to 50. -/
theorem SerialDecoder.foldl_onByte_pos (c : Config) (bs : List Byte) :
    ∀ d : SerialDecoder, d.pos ≤ 50 → (bs.foldl (SerialDecoder.onByte c) d).pos = min 50 (d.pos + bs.length) := by
  induction bs with
  | nil => intro d hd; simpa using hd
  | cons b bs ih =>
    intro d hd
    have hpos : (d.onByte c b).pos = min 50 (d.pos + 1) := by
      rw [SerialDecoder.onByte_pos]
      split_ifs <;> omega
    rw [List.foldl_cons, ih _ (by omega), List.length_cons]
    omega

/-- Once 50 bytes are seen, no further byte changes anything. -/
theorem SerialDecoder.foldl_onByte_of_saturated (c : Config) (d : SerialDecoder) (h : 50 ≤ d.pos) (bs : List Byte) :
    bs.foldl (SerialDecoder.onByte c) d = d := by
  induction bs with
  | nil => rfl
  | cons b bs ih => rw [List.foldl_cons, SerialDecoder.onByte_of_saturated c d b h, ih]

/-- The registers after byte 0 and the first `n` word places of the message: whether byte 0 is `START` and no place is
rejected, and the words of those places. -/
def SerialDecoder.afterPlaces (c : Config) (m : Message) (n : Nat) : SerialDecoder :=
  { pos := 1 + 8 * n
    ok := m[0]? == some c.start && !(List.range n).any fun k => rejectsWord c.policy (placeBytes m k)
    acc := 0
    out := (List.range n).foldl (fun V k => setWord V k (placeWord c.policy m k)) zero6
    place := [] }

/-- The eight bytes of the next word place are taken in. -/
theorem SerialDecoder.foldl_onByte_placeBytes (c : Config) {m : Message} (hm : 50 ≤ m.length) {n : Nat} (hn : n < 6) :
    (placeBytes m n).foldl (SerialDecoder.onByte c) (.afterPlaces c m n) = .afterPlaces c m (n + 1) := by
  have hstep := fun ok out => SerialDecoder.onByte_place c n hn ok out (m.getD (1 + 8 * n) 0) (m.getD (2 + 8 * n) 0)
    (m.getD (3 + 8 * n) 0) (m.getD (4 + 8 * n) 0) (m.getD (5 + 8 * n) 0) (m.getD (6 + 8 * n) 0) (m.getD (7 + 8 * n) 0)
    (m.getD (8 + 8 * n) 0)
  rw [← placeBytes_eq_getD m n hm hn] at hstep
  have hpos : 9 + 8 * n = 1 + 8 * (n + 1) := by omega
  rw [SerialDecoder.afterPlaces, hstep, SerialDecoder.afterPlaces, List.range_succ, List.any_append, List.foldl_append, hpos]
  simp [placeWord, Bool.and_assoc]

/-- At a message boundary, byte 0 is compared with `START`. -/
theorem SerialDecoder.onByte_start (c : Config) (b : Byte) (bs : List Byte) :
    SerialDecoder.cleared.onByte c b = .afterPlaces c (b :: bs) 0 := by
  simp [SerialDecoder.onByte, SerialDecoder.cleared, SerialDecoder.afterPlaces, startIdx, frameLen]

/-- From a message boundary, byte 0 and `n` word places. -/
theorem SerialDecoder.foldl_onByte_take (c : Config) {m : Message} (hm : 50 ≤ m.length) (n : Nat) (hn : n ≤ 6) :
    (m.take (1 + 8 * n)).foldl (SerialDecoder.onByte c) .cleared = .afterPlaces c m n := by
  induction n with
  | zero =>
    cases m with
    | nil => simp at hm
    | cons b bs => exact SerialDecoder.onByte_start c b bs
  | succ n ih =>
    have htake : m.take (1 + 8 * (n + 1)) = m.take (1 + 8 * n) ++ placeBytes m n := by
      rw [Nat.mul_succ, ← Nat.add_assoc, List.take_add]
      rfl
    rw [htake, List.foldl_append, ih (by omega), SerialDecoder.foldl_onByte_placeBytes c hm (by omega)]

/-- Byte 49 is compared with `END`. -/
theorem SerialDecoder.onByte_stop (c : Config) (d : SerialDecoder) (b : Byte) (h : d.pos = 49) :
    d.onByte c b = { d with pos := 50, ok := d.ok && b == c.stop } := by
  simp [SerialDecoder.onByte, h, startIdx, payloadLen, endIdx, frameLen]

/-- The record of six places written in order is the one R89 lists, if the message is accepted. -/
theorem decRecord_eq_afterPlaces (c : Config) (m : Message) :
    decRecord c m = if accepts c m then (SerialDecoder.afterPlaces c m 6).out else zero6 := rfl

/-- The flag after byte 0, six places and byte 49 is the acceptance of R86 and R58. -/
theorem afterPlaces_ok_and_stop (c : Config) {m : Message} (hm : 50 ≤ m.length) :
    ((SerialDecoder.afterPlaces c m 6).ok && m[49]? == some c.stop) = accepts c m := by
  have hlen : decide (frameLen ≤ m.length) = true := decide_eq_true hm
  simp only [SerialDecoder.afterPlaces, accepts, frameOk, rejectsPayload, hlen, Bool.true_and]
  exact Bool.and_right_comm _ _ _

/-- Given byte by byte, a message leaves the record `DEC` makes of it (R97). -/
theorem SerialDecoder.result_foldl_onByte (c : Config) (m : Message) :
    (m.foldl (SerialDecoder.onByte c) .cleared).result = decRecord c m := by
  by_cases hm : 50 ≤ m.length
  case neg =>
    have hpos : (m.foldl (SerialDecoder.onByte c) .cleared).pos ≠ frameLen := by
      rw [SerialDecoder.foldl_onByte_pos c m _ (Nat.zero_le _)]
      simp only [SerialDecoder.cleared, frameLen]
      omega
    rw [SerialDecoder.result, if_neg fun h => hpos h.1, decRecord_of_malformed fun h => hm h.1]
  case pos =>
    have hsplit : m = m.take 49 ++ m[49] :: m.drop 50 := by
      rw [List.getElem_cons_drop, List.take_append_drop]
    have h49 : (m[49] == c.stop) = (m[49]? == some c.stop) := by
      rw [List.getElem?_eq_getElem hm]
      rfl
    have hregs : m.foldl (SerialDecoder.onByte c) .cleared =
        { SerialDecoder.afterPlaces c m 6 with pos := 50, ok := accepts c m } := by
      conv_lhs => rw [hsplit]
      rw [List.foldl_append, SerialDecoder.foldl_onByte_take c hm 6 le_rfl, List.foldl_cons,
        SerialDecoder.onByte_stop _ _ _ rfl, SerialDecoder.foldl_onByte_of_saturated _ _ le_rfl, h49,
        afterPlaces_ok_and_stop c hm]
    rw [hregs, decRecord_eq_afterPlaces, SerialDecoder.result]
    simp

/-- The bytes of a message given one a step and then its end: the record of the bytes stands on `REC_OUT`, and the decoder is
at a message boundary. -/
theorem runSteps_receive (m : Message) (rest : List Event) :
    ∀ s : State, s.inputs = m.map .receiveByte ++ .endOfMessage :: rest →
      runSteps (m.length + 1) s =
        .next { s with
          recOut := some (m.foldl (SerialDecoder.onByte s.cfg) s.decSer).result
          decSer := .cleared
          inputs := rest } := by
  induction m with
  | nil =>
    intro s hin
    exact runSteps_succ_of_next 0 (step_event s _ rest hin)
  | cons b m ih =>
    intro s hin
    rw [List.length_cons, runSteps_succ_of_next (m.length + 1) (step_event s _ _ hin)]
    exact ih _ rfl

/-- Settles O24: the steps fold the byte step over the message, and the fold gives what `DEC` gives. -/
theorem byteWiseDecodingGivesWhatDecGives : Obligations.ByteWiseDecodingGivesWhatDecGives := by
  intro m s rest hin hser
  have hrun := runSteps_receive m rest s hin
  rw [hser, SerialDecoder.result_foldl_onByte, ← hser] at hrun
  exact ⟨decRecord s.cfg m, exec_dec m s, hrun⟩

end Sys2Proof.Machine

/-! SUPPORT. The statements of 42_codec_laws.md: the laws of `ENC` and `DEC`, and the invariant every step keeps. The general
lemmas come first in each part; each statement is assembled from them. -/

namespace Sys2Proof.Machine

/-! ## Encode, then decode (R105, R106, R118) -/

/-- Settles O13: a frame is answered by its record under every policy. -/
theorem decodingAnEncodedRecordGivesItBack : Obligations.DecodingAnEncodedRecordGivesItBack := by
  refine fun r s => ⟨encFrame s.cfg r, exec_enc r s, ?_⟩
  rw [exec_dec, decRecord_encFrame]

/-- The payload of a frame determines the record, whatever the markers and the policy are (R106). -/
theorem encFrame_injective {c c' : Config} {r r' : Record} (h : encFrame c r = encFrame c' r') : r = r' := by
  rw [← fieldRecord_encFrame c r, h, fieldRecord_encFrame c' r']

/-- Settles O2: the fields of the one message give both records. -/
theorem encIsInjective : Obligations.EncIsInjective := by
  intro r r' s t t' h h' hout
  rw [exec_enc] at h h'
  cases h
  cases h'
  exact encFrame_injective (Option.some.inj hout)

/-- A frame depends on the constants by the markers alone. -/
theorem encFrame_of_sameMarkers {c c' : Config} (h : sameMarkers c c') (r : Record) : encFrame c r = encFrame c' r := by
  obtain ⟨hstart, hstop⟩ := h
  simp only [encFrame, hstart, hstop]

/-- A frame that a decoder with the constants `c'` takes for well-formed carries the markers of `c'`. -/
theorem sameMarkers_of_encFrame {c c' : Config} {r : Record} (hstart : (encFrame c r)[0]? = some c'.start)
    (hstop : (encFrame c r)[49]? = some c'.stop) : sameMarkers c c' :=
  ⟨Option.some.inj hstart, Option.some.inj hstop⟩

/-- Settles O16: with the same markers the frame is the decoder's own, and with others it is malformed. -/
theorem instancesInteroperateIffMarkersAgree : Obligations.InstancesInteroperateIffMarkersAgree := by
  refine fun r s s' _ => ⟨encFrame s.cfg r, decRecord s'.cfg (encFrame s.cfg r), exec_enc r s, exec_dec _ s',
    fun hsame => ?_, fun hdiff => ?_⟩
  · rw [encFrame_of_sameMarkers hsame, decRecord_encFrame]
  · exact decRecord_of_malformed fun ⟨_, hstart, hstop⟩ => hdiff (sameMarkers_of_encFrame hstart hstop)

/-! ## The bytes of a frame (R108, R109, R117) -/

/-- Between the markers a frame holds nibbles (R108). -/
theorem encFrame_payload_le {c : Config} {r : Record} {j : Nat} {b : Byte} (h1 : 1 ≤ j) (h48 : j ≤ 48)
    (h : (encFrame c r)[j]? = some b) : b ≤ 0x0F#8 := by
  rcases encFrame_getElem?_cases c r j b h with ⟨h0, -⟩ | ⟨h49, -⟩ | ⟨-, -, k, -, i, -, -, rfl⟩
  · omega
  · omega
  · exact (aboveNibble_eq_false_iff _).1 (aboveNibble_nibByte (word r k) i)

/-- No nibble is in the range of the markers (R109). -/
theorem not_marker_le_of_nibble {b : Byte} (h : b ≤ 0x0F#8) : ¬ 0xF0#8 ≤ b :=
  fun hmarker => absurd (BitVec.le_trans hmarker h) (by decide)

/-- Legal markers are in their range (R6). -/
theorem markersLegal_iff (c : Config) : c.markersLegal = true ↔ 0xF0#8 ≤ c.start ∧ 0xF0#8 ≤ c.stop := by
  simp only [Config.markersLegal, Bool.and_eq_true, decide_eq_true_eq]

/-- Settles O3: a payload byte is a nibble and a marker is none, and a frame has the markers at its two ends. -/
theorem framePayloadNeverHoldsAMarker : Obligations.FramePayloadNeverHoldsAMarker := by
  intro r s t M hlegal henc hout j b hj
  rw [exec_enc] at henc
  cases henc
  obtain rfl : encFrame s.cfg r = M := Option.some.inj hout
  obtain ⟨hstart, hstop⟩ := (markersLegal_iff _).1 hlegal
  constructor
  · intro h1 h48
    have hb := encFrame_payload_le h1 h48 hj
    refine ⟨hb, ?_, ?_⟩
    · rintro rfl
      exact not_marker_le_of_nibble hb hstart
    · rintro rfl
      exact not_marker_le_of_nibble hb hstop
  · rcases encFrame_getElem?_cases s.cfg r j b hj with ⟨rfl, rfl⟩ | ⟨rfl, rfl⟩ | ⟨h1, h48, -⟩
    · exact iff_of_true hstart (.inl rfl)
    · exact iff_of_true hstop (.inr rfl)
    · have hb := not_marker_le_of_nibble (encFrame_payload_le h1 h48 hj)
      exact iff_of_false hb (by omega)

/-- Settles O4: the byte is the nibble's, and the markers are the constants. -/
theorem eachFrameByteDependsOnItsNibbleAlone : Obligations.EachFrameByteDependsOnItsNibbleAlone := by
  intro r r' s t t' M M' h h' hout hout'
  rw [exec_enc] at h h'
  cases h
  cases h'
  obtain rfl : encFrame s.cfg r = M := Option.some.inj hout
  obtain rfl : encFrame s.cfg r' = M' := Option.some.inj hout'
  refine ⟨rfl, rfl, fun k hk i hi => ?_⟩
  have hplace : 7 - (7 - i) = i := by omega
  rw [encFrame_payload s.cfg r k _ hk (by omega), encFrame_payload s.cfg r' k _ hk (by omega), hplace,
    Option.some_inj, nibByte_inj]

/-! ## The answer of `DEC` (R112, R113) -/

/-- Settles O7: it is what O19 says of a malformed message. -/
theorem decRejectsMalformedMessages : Obligations.DecRejectsMalformedMessages := by
  intro m s hbad
  obtain ⟨-, -, -, hreject⟩ := zeroRecordIsAmbiguous s m hbad
  exact hreject

/-- A word place is the bytes of the message at its eight indices (R32). -/
theorem placeBytes_congr {m m' : Message} {k : Nat} (h : ∀ j, 1 + 8 * k ≤ j → j ≤ 8 + 8 * k → m[j]? = m'[j]?) :
    placeBytes m k = placeBytes m' k := by
  refine List.ext_getElem? fun t => ?_
  by_cases ht : t < 8
  · rw [placeBytes, placeBytes, List.getElem?_take_of_lt ht, List.getElem?_take_of_lt ht, List.getElem?_drop,
      List.getElem?_drop]
    exact h _ (by simp only [nibsPerWord]; omega) (by simp only [nibsPerWord]; omega)
  · simp [placeBytes, nibsPerWord, ht]

/-- Settles O10: both messages are accepted, and the two places hold the same bytes. -/
theorem decWordDependsOnItsPlaceAlone : Obligations.DecWordDependsOnItsPlaceAlone := by
  intro m m' s t t' V V' k hp hlen hstart hstop hlen' hstart' hstop' hk hplace h h' hout hout'
  rw [exec_dec] at h h'
  cases h
  cases h'
  obtain rfl : decRecord s.cfg m = V := Option.some.inj hout
  obtain rfl : decRecord s.cfg m' = V' := Option.some.inj hout'
  have haccepts : accepts s.cfg m = true := accepts_of_total ((frameOk_iff _ _).2 ⟨hlen, hstart, hstop⟩) hp
  have haccepts' : accepts s.cfg m' = true := accepts_of_total ((frameOk_iff _ _).2 ⟨hlen', hstart', hstop'⟩) hp
  rw [word_decRecord _ _ haccepts k hk, word_decRecord _ _ haccepts' k hk, placeWord, placeWord, placeBytes_congr hplace]

/-! ## Nibbles and the accumulator (R115, R116) -/

/-- The nibbles of a sum of eight nibbles by place are those nibbles: base 16 has one expansion (R116). -/
theorem nib_of_nibble_sum {n : Nat → Nibble} {v : Word}
    (h : v.toNat = ∑ t ∈ Finset.range 8, (n t).toNat * 16 ^ (7 - t)) {t : Nat} (ht : t < 8) : nib v (7 - t) = n t := by
  have h0 := (n 0).isLt
  have h1 := (n 1).isLt
  have h2 := (n 2).isLt
  have h3 := (n 3).isLt
  have h4 := (n 4).isLt
  have h5 := (n 5).isLt
  have h6 := (n 6).isLt
  have h7 := (n 7).isLt
  simp only [Finset.sum_range_succ, Finset.sum_range_zero] at h
  apply BitVec.eq_of_toNat_eq
  rw [nib_toNat]
  interval_cases t <;> omega

/-- Settles O20: the expansion of a word in base 16, and that it is the only one. -/
theorem nibblesDecomposeAWord : Obligations.NibblesDecomposeAWord := by
  refine ⟨fun w => ?_, fun n v h t ht => nib_of_nibble_sum h ht⟩
  rw [word_eq_nibble_sum w]
  simp only [Finset.sum_range_succ, Finset.sum_range_zero]
  omega

/-- `mask` and `reject` take one more byte in as arithmetic, reduced to 32 bits. -/
theorem accumulateAll_concat_toNat {p : HighNibblePolicy} (hp : p = .mask ∨ p = .reject) (bs : List Byte) (b : Byte) :
    (accumulateAll p 0 (bs ++ [b])).toNat = ((accumulateAll p 0 bs).toNat * 16 + b.toNat % 16) % 2 ^ 32 := by
  rw [accumulateAll_append, accumulateAll_cons, accumulateAll_nil]
  rcases hp with rfl | rfl <;> exact mask_step_toNat _ b

/-- The accumulator after `t` payload bytes is a number of `t` nibbles. -/
theorem accumulateAll_toNat_lt {p : HighNibblePolicy} (hp : p = .mask ∨ p = .reject) (bs : List Byte) :
    (accumulateAll p 0 bs).toNat < 16 ^ bs.length := by
  induction bs using List.reverseRecOn with
  | nil => exact Nat.one_pos
  | append_singleton bs b ih =>
    rw [accumulateAll_concat_toNat hp, List.length_append, List.length_singleton, pow_succ]
    exact (Nat.mod_le _ _).trans_lt (by omega)

/-- Settles O21: up to eight bytes the accumulator stays below `16^8 = 2^32`, so the reduction is the identity. -/
theorem accumulatorNeverWraps : Obligations.AccumulatorNeverWraps := by
  intro p bs b hp hlen
  have hlt := accumulateAll_toNat_lt hp bs
  have hpow : 16 ^ bs.length ≤ 16 ^ 7 := Nat.pow_le_pow_right (by decide) (by omega)
  refine ⟨hlt, ?_⟩
  rw [accumulateAll_concat_toNat hp, Nat.mod_eq_of_lt (by omega)]

/-! ## Decode, then encode (R110) -/

/-- The byte of a payload byte's nibble is that byte with its high four bits cleared (R53, R90). -/
theorem pn_setWidth (b : Byte) : (pn b).setWidth 8 = b &&& 0x0F#8 := by
  revert b
  decide

/-- On a byte at most `0x0F`, clearing the high four bits changes nothing. -/
theorem and_0x0F_of_le {b : Byte} (h : b ≤ 0x0F#8) : b &&& 0x0F#8 = b := by
  revert b
  decide

/-- The nibbles of a field are the low nibbles of its eight bytes (R61). -/
theorem nib_fieldWord (m : Message) (k : Nat) {t : Nat} (ht : t < 8) :
    nib (fieldWord m k) (7 - t) = pn (m.getD (1 + 8 * k + t) 0) := by
  refine nib_of_nibble_sum (n := fun t => letterAt m (1 + 8 * k + t)) ?_ ht
  simp only [fieldWord_toNat, letterAt_toNat]

/-- The frame of a message's fields has, between the markers, the bytes of the message with their high four bits cleared. -/
theorem encFrame_fieldRecord_payload (c : Config) {m : Message} (hm : 50 ≤ m.length) {j : Nat} (h1 : 1 ≤ j) (h48 : j ≤ 48) :
    (encFrame c (fieldRecord m))[j]? = m[j]?.map (fun x => x &&& 0x0F#8) := by
  obtain ⟨k, t, hk, ht, rfl⟩ : ∃ k t, k < 6 ∧ t < 8 ∧ j = 1 + 8 * k + t :=
    ⟨(j - 1) / 8, (j - 1) % 8, by omega, by omega, by omega⟩
  have hlt : 1 + 8 * k + t < m.length := by omega
  rw [encFrame_payload c _ k t hk ht, word_fieldRecord m k hk, nibByte, nib_fieldWord m k ht, pn_setWidth,
    List.getD_eq_getElem _ _ hlt, List.getElem?_eq_getElem hlt, Option.map_some]

/-- Settles O15: under `mask` the record is the message's fields, and their frame is the message cleared. -/
theorem maskClearsTheHighNibbles : Obligations.MaskClearsTheHighNibbles := by
  intro b s hp hlen hstart hstop
  have hdec : decRecord s.cfg b = fieldRecord b := decRecord_mask hp ((frameOk_iff _ _).2 ⟨hlen, hstart, hstop⟩)
  refine ⟨fieldRecord b, encFrame s.cfg (fieldRecord b), ?_, exec_enc _ s, encFrame_length _ _,
    (encFrame_start _ _).trans hstart.symm, (encFrame_stop _ _).trans hstop.symm,
    fun j => encFrame_fieldRecord_payload s.cfg hlen⟩
  rw [exec_dec, hdec]

/-- A canonical message byte by byte (R110). -/
theorem canonical_iff (c : Config) (m : Message) :
    canonical c m = true ↔ m.length = 50 ∧ m[0]? = some c.start ∧ m[49]? = some c.stop ∧
      ∀ j x, 1 ≤ j → j ≤ 48 → m[j]? = some x → x ≤ 0x0F#8 := by
  simp only [canonical, Bool.and_eq_true, decide_eq_true_eq, frameOk_iff, List.all_eq_true, Bool.not_eq_true',
    aboveNibble_eq_false_iff, and_assoc]
  refine and_congr_right fun (hlen : m.length = 50) => ?_
  simp only [hlen.ge, true_and, mem_payload_iff m _ hlen.ge]
  refine and_congr_right fun _ => and_congr_right fun _ => ⟨fun h j x h1 h48 hj => h x ⟨j, h1, h48, hj⟩, ?_⟩
  rintro h x ⟨j, h1, h48, hj⟩
  exact h j x h1 h48 hj

/-- A frame is canonical (R107 to R109). -/
theorem canonical_encFrame (c : Config) (r : Record) : canonical c (encFrame c r) = true :=
  (canonical_iff _ _).2 ⟨encFrame_length c r, encFrame_start c r, encFrame_stop c r, fun _ _ => encFrame_payload_le⟩

/-- With a frame on `MSG_OUT`, what stands there is canonical. -/
theorem canonical_of_some_encFrame (c : Config) (r : Record) :
    ∀ m, some (encFrame c r) = some m → canonical c m = true := by
  rintro _ ⟨⟩
  exact canonical_encFrame c r

/-- With payload bytes at most `0x0F`, every policy reads the fields of the message (R58, R61). -/
theorem decRecord_of_nibbles {c : Config} {m : Message} (hframe : frameOk c m = true)
    (h : ∀ j b, 1 ≤ j → j ≤ 48 → m[j]? = some b → b ≤ 0x0F#8) : decRecord c m = fieldRecord m := by
  apply record_ext_word
  intro k hk
  rw [word_decRecord c m (accepts_of_frameOk hframe (.inr h)) k hk, word_fieldRecord m k hk,
    placeWord_eq_fieldWord ((frameOk_iff c m).1 hframe).1 (.inr h) hk]

/-- A canonical message is the frame of its fields. -/
theorem encFrame_fieldRecord_of_canonical {c : Config} {m : Message} (h : canonical c m = true) :
    encFrame c (fieldRecord m) = m := by
  obtain ⟨hlen, hstart, hstop, hbytes⟩ := (canonical_iff c m).1 h
  refine List.ext_getElem (hlen ▸ encFrame_length c _) fun j _ hj => ?_
  rw [← Option.some_inj, ← List.getElem?_eq_getElem, ← List.getElem?_eq_getElem]
  obtain rfl | rfl | ⟨h1, h48⟩ : j = 0 ∨ j = 49 ∨ (1 ≤ j ∧ j ≤ 48) := by omega
  · rw [encFrame_start, hstart]
  · rw [encFrame_stop, hstop]
  · have hle := hbytes j m[j] h1 h48 (List.getElem?_eq_getElem hj)
    rw [encFrame_fieldRecord_payload c hlen.ge h1 h48, List.getElem?_eq_getElem hj, Option.map_some, and_0x0F_of_le hle]

/-- The canonical messages are those that `DEC` and then `ENC` give back (R110). -/
theorem encFrame_decRecord_eq_iff (c : Config) (m : Message) : encFrame c (decRecord c m) = m ↔ canonical c m = true := by
  constructor
  · intro h
    rw [← h]
    exact canonical_encFrame c (decRecord c m)
  · intro h
    obtain ⟨hlen, hstart, hstop, hbytes⟩ := (canonical_iff c m).1 h
    rw [decRecord_of_nibbles ((frameOk_iff c m).2 ⟨hlen.ge, hstart, hstop⟩) hbytes, encFrame_fieldRecord_of_canonical h]

/-- Settles O14: a message that comes back is a frame, and a canonical message is the frame of its fields. -/
theorem encodingADecodedMessageGivesItBackIffCanonical : Obligations.EncodingADecodedMessageGivesItBackIffCanonical :=
  fun b s => ⟨decRecord s.cfg b, encFrame s.cfg (decRecord s.cfg b), exec_dec b s, exec_enc _ _,
    (encFrame_decRecord_eq_iff s.cfg b).trans (canonical_iff s.cfg b)⟩

/-! ## The invariant (R6, R15, R21, R78, R97, R107 to R110) -/

/-- While `REC_IN` has not changed, what a sound encoder has emitted are the first bytes of the frame, a message boundary
included (R78). -/
theorem SerialEncoder.emitted_of_sound {c : Config} {r : Record} {e : SerialEncoder} (h : e.sound c r)
    (hch : e.changed = false) : e.pos ≤ 49 ∧ e.emitted = (encFrame c r).take e.pos := by
  rcases h with rfl | ⟨-, h49, -, hbytes⟩
  · exact ⟨Nat.zero_le _, rfl⟩
  · exact ⟨h49, hbytes hch⟩

/-- The first bytes of a frame, emitted short of its end, leave a sound encoder. -/
theorem SerialEncoder.sound_of_take (c : Config) (r : Record) {e : SerialEncoder} (h1 : 1 ≤ e.pos) (h49 : e.pos ≤ 49)
    (h : e.emitted = (encFrame c r).take e.pos) : e.sound c r := by
  refine .inr ⟨h1, h49, ?_, fun _ => h⟩
  rw [h, List.length_take, encFrame_length]
  omega

/-- The watch keeps the encoder sound for the record that is now on `REC_IN`: where it is another one, the change is noted and
nothing is claimed of the bytes emitted (U12). -/
theorem State.watchRecord_sound {s : State} {before : Record} (h : s.encSer.sound s.cfg before) :
    (s.watchRecord before).encSer.sound s.cfg s.recIn := by
  rw [State.watchRecord_encSer]
  split_ifs with hpos hrec
  · exact .inl (h.resolve_right fun ⟨h1, _⟩ => by omega)
  · rwa [hrec]
  · rcases h with hcl | ⟨h1, h49, hlen, -⟩
    · exact absurd (congrArg SerialEncoder.pos hcl) hpos
    · exact .inr ⟨h1, h49, hlen, nofun⟩

/-- The watch keeps the machine sound, where the encoder was sound for the record before. -/
theorem inv_watchRecord {s : State} {before : Record} (hlegal : s.cfg.legal = true)
    (hout : ∀ m, s.msgOut = some m → canonical s.cfg m = true) (henc : s.encSer.sound s.cfg before)
    (hdec : s.decSer.sound) : Inv (s.watchRecord before) := by
  simp only [Inv, State.watchRecord_cfg, State.watchRecord_msgOut, State.watchRecord_recIn, State.watchRecord_decSer]
  exact ⟨hlegal, hout, State.watchRecord_sound henc, hdec⟩

/-- A byte step of the encoder keeps the machine sound: one more byte of the frame, or the whole frame on `MSG_OUT` (R78). -/
theorem inv_emitOf {s : State} (h : Inv s) (hch : s.encSer.changed = false) : Inv (emitOf s) := by
  obtain ⟨hlegal, hout, henc, hdec⟩ := h
  obtain ⟨h49, hemitted⟩ := SerialEncoder.emitted_of_sound henc hch
  by_cases hlast : s.encSer.pos = 49
  case pos =>
    have hframe : s.encSer.emitted ++ [s.cfg.stop] = encFrame s.cfg s.recIn := by
      rw [hemitted, hlast]
      rfl
    rw [emitOf_last s hlast, hframe]
    exact ⟨hlegal, canonical_of_some_encFrame s.cfg s.recIn, .inl rfl, hdec⟩
  case neg =>
    have hbytes := take_encFrame_append_encByte s.cfg s.recIn (p := s.encSer.pos) (by omega)
    rw [emitOf_of_ne_last s hlast, hemitted, hbytes]
    exact ⟨hlegal, hout,
      SerialEncoder.sound_of_take s.cfg s.recIn (Nat.le_add_left 1 _) (Nat.succ_le_of_lt (by omega)) rfl, hdec⟩

/-- A byte inside a word place goes into the accumulator and the note of the place (R97). -/
theorem SerialDecoder.onByte_within_place (c : Config) (d : SerialDecoder) (b : Byte) (h1 : 1 ≤ d.pos) (h48 : d.pos ≤ 48)
    (h : d.pos % 8 ≠ 0) :
    d.onByte c b = { d with
      pos := d.pos + 1
      ok := d.ok && !rejectsByte c.policy b
      acc := accumulate c.policy d.acc b
      place := d.place ++ [b] } := by
  have hstart : d.pos ≠ 0 := Nat.ne_of_gt h1
  have hframe : d.pos < 50 := by omega
  simp [SerialDecoder.onByte, startIdx, payloadLen, nibsPerWord, frameLen, hstart, h48, h, hframe]

/-- The last byte of a word place writes the word, and clears the accumulator and the note of the place (R97). -/
theorem SerialDecoder.onByte_end_of_place (c : Config) (d : SerialDecoder) (b : Byte) (h1 : 1 ≤ d.pos) (h48 : d.pos ≤ 48)
    (h : d.pos % 8 = 0) :
    d.onByte c b =
      { pos := d.pos + 1
        ok := d.ok && !rejectsByte c.policy b && !rejectsPlace c.policy (d.place ++ [b])
        acc := 0
        out := setWord d.out (d.pos / 8 - 1) (finishWord c.policy (d.place ++ [b]) (accumulate c.policy d.acc b))
        place := [] } := by
  have hstart : d.pos ≠ 0 := Nat.ne_of_gt h1
  have hframe : d.pos < 50 := by omega
  simp [SerialDecoder.onByte, startIdx, payloadLen, nibsPerWord, frameLen, hstart, h48, h, hframe]

/-- Every byte keeps the decoder's registers sound (R97). -/
theorem SerialDecoder.onByte_sound (c : Config) {d : SerialDecoder} (h : d.sound) (b : Byte) : (d.onByte c b).sound := by
  have ⟨_, hcleared, _, hplace⟩ := h
  obtain h0 | ⟨h1, h48⟩ | h49 | hsat : d.pos = 0 ∨ (1 ≤ d.pos ∧ d.pos ≤ 48) ∨ d.pos = 49 ∨ 50 ≤ d.pos := by omega
  · rw [hcleared h0, SerialDecoder.onByte_start c b []]
    simp [SerialDecoder.sound, SerialDecoder.afterPlaces]
  · by_cases hend : d.pos % 8 = 0
    · rw [SerialDecoder.onByte_end_of_place c d b h1 h48 hend]
      exact ⟨Nat.succ_le_of_lt (by omega), nofun, fun _ => rfl, fun _ => hend.symm⟩
    · rw [SerialDecoder.onByte_within_place c d b h1 h48 hend]
      have hlen := hplace (by omega)
      refine ⟨Nat.succ_le_of_lt (by omega), nofun, fun hbetween => absurd hbetween hend, fun _ => ?_⟩
      simp only [List.length_append, List.length_singleton, Nat.add_sub_cancel]
      omega
  · rw [SerialDecoder.onByte_stop c d b h49]
    simp [SerialDecoder.sound]
  · rwa [SerialDecoder.onByte_of_saturated c d b hsat]

/-- Every act of the environment that is not refused keeps the machine sound. -/
theorem runEvent_inv {e : Event} {s t : State} (h : Inv s) (hrun : runEvent e s = .next t) : Inv t := by
  have ⟨hlegal, hout, henc, hdec⟩ := h
  rcases runEvent_next_cases hrun with ⟨r, -, rfl⟩ | ⟨m, -, rfl⟩ | ⟨r, -, rfl⟩ | ⟨-, hch, rfl⟩ | ⟨b, -, rfl⟩ | ⟨-, rfl⟩ |
    ⟨-, -, rfl⟩ | ⟨-, -, rfl⟩ | ⟨-, rfl⟩
  · exact inv_watchRecord hlegal (canonical_of_some_encFrame s.cfg r) henc hdec
  · exact ⟨hlegal, hout, henc, hdec⟩
  · exact inv_watchRecord hlegal hout henc hdec
  · exact inv_emitOf h hch
  · exact ⟨hlegal, hout, henc, SerialDecoder.onByte_sound s.cfg hdec b⟩
  · exact ⟨hlegal, hout, henc, SerialDecoder.cleared_sound⟩
  · exact ⟨hlegal, fun m hm => (Option.some_ne_none m hm.symm).elim, henc, hdec⟩
  · exact ⟨hlegal, hout, henc, hdec⟩
  · exact inv_resetWith hlegal

/-- Settles O32: a step with nothing asked keeps the state, and each act of the environment keeps the invariant. -/
theorem everyStepKeepsTheMachineSound : Obligations.EveryStepKeepsTheMachineSound := by
  intro s t hinv h
  cases hin : s.inputs with
  | nil =>
    rw [step_idle s hin] at h
    cases h
    exact hinv
  | cons e rest =>
    rw [step_event s e rest hin] at h
    exact runEvent_inv (s := s.setInputs rest) hinv h

end Sys2Proof.Machine

/-! SUPPORT. The statements of 43_environment_protocol.md: the wait for an acknowledgement, the session and its channel, and
the requests of a flow. The general lemmas come first in each part; each statement is assembled from them. -/

namespace Sys2Proof.Machine

/-! ## The channel from launch to `Done` (R126, R143, R146) -/

/-- Settles O44: a poll keeps the phase and who owns the channel, and is made before `Done` only; the end releases the
channel in `Done`; and a request is sent in its own state, which is not `Done`. -/
theorem sessionOwnsItsChannelUntilDone : Obligations.SessionOwnsItsChannelUntilDone := by
  rintro s t ⟨howned, hquiet, hrequests⟩ hstep
  rcases s.step_cases with ⟨key, ch, hkey, hch, -, -, -, -, hnext⟩ | ⟨key, m, ch, hkey, hch, -, -, -, hnext⟩ |
    ⟨hkey, htodo, hnext⟩ | ⟨q, rest, hkey, htodo, hnext⟩
  · cases hnext.symm.trans hstep
    exact ⟨hch ▸ howned, hquiet, hrequests⟩
  · rw [s.examine_eq] at hnext
    cases hnext.symm.trans hstep
    have hnotDone : s.phase ≠ .done := fun hdone => absurd (hquiet hdone).1 (by simp [hkey])
    exact ⟨hch ▸ howned, fun hdone => absurd hdone hnotDone, hrequests⟩
  · cases hnext.symm.trans hstep
    exact ⟨iff_of_true rfl rfl, fun _ => ⟨hkey, htodo⟩, hrequests⟩
  · rw [s.send_eq] at hnext
    cases hnext.symm.trans hstep
    rw [htodo, List.forall_mem_cons] at hrequests
    obtain ⟨hq, hrest⟩ := hrequests
    have hnotDone : s.phase ≠ .done := fun hdone => absurd (hquiet hdone).2 (by simp [htodo])
    exact ⟨iff_of_false hq (mt howned.2 hnotDone), fun hdone => absurd hdone hq, hrest⟩

/-- No flow has a request that is sent in the state `Done` (R126). -/
theorem Flow.requests_phase_ne_done (k : ProtocolConsts) (f : Flow) : ∀ q ∈ f.requests k, q.phase ≠ .done := by
  cases f with
  | firmware image => simp [Flow.requests, or_imp, forall_and]
  | samples ss => simp [Flow.requests]
  | batch rs => simp [Flow.requests]
  | single r => simp [Flow.requests]

theorem Session.start_inv (s : State) (k : ProtocolConsts) (f : Flow) (ch : Channel) : (Session.start s k f ch).Inv :=
  ⟨iff_of_false nofun nofun, nofun, f.requests_phase_ne_done k⟩

/-- A second session on an owned channel is refused (R161, U3). -/
theorem launch_on_owned_channel {ch : Channel} (s : State) {k : ProtocolConsts} {l : Launch} {f : Flow}
    (hflow : l.flow k.text = .ok f) (howned : ch.owned = true) : Session.launch ch s k l = .error .channelOwned := by
  simp [Session.launch, hflow, howned]

/-- Settles O51: the two modes without a flow, the owned channel, and the session of a free one. -/
theorem launchesWithoutMeaningStartNoSession : Obligations.LaunchesWithoutMeaningStartNoSession :=
  fun s k ch => ⟨rfl, rfl, fun _ _ hflow howned => launch_on_owned_channel s hflow howned, fun _ f hflow hfree =>
    ⟨Session.start s k f ch, launch_on_free_channel s hflow hfree, Session.start_inv s k f ch, rfl, rfl, rfl, rfl, rfl,
      launch_on_owned_channel s hflow rfl, ⟨_, launch_on_free_channel s hflow rfl⟩,
      ⟨_, launch_on_free_channel s hflow rfl⟩⟩⟩

/-! ## Several steps of a session -/

theorem Session.run_succ_of_next {s t : Session} (n : Nat) (h : s.step = .next t) : s.run (n + 1) = t.run n := by
  simp only [Session.run, h]

theorem Session.run_one (s : Session) : s.run 1 = s.step := by
  cases h : s.step <;> simp only [Session.run, h]

theorem Session.run_add {n : Nat} (n' : Nat) {s t : Session} (h : s.run n = .next t) : s.run (n + n') = t.run n' := by
  induction n generalizing s with
  | zero => cases h; rw [Nat.zero_add]
  | succ n ih =>
    cases hstep : s.step with
    | next u =>
      rw [Session.run_succ_of_next n hstep] at h
      rw [Nat.succ_add, Session.run_succ_of_next _ hstep, ih h]
    | fault e => simp [Session.run, hstep] at h
    | refused e => simp [Session.run, hstep] at h

/-! ## A wait (R122, R133 to R136) -/

/-- `receive` as an equation: past the end of the inbound list nothing is pending (R120). -/
theorem Channel.receive_eq (ch : Channel) : ch.receive = (ch.inbound.head?.join, { ch with inbound := ch.inbound.tail }) := by
  obtain ⟨owned, inbound, sent⟩ := ch
  cases inbound <;> rfl

/-- A poll that finds nothing, as an equation: another poll, or on a zero key the empty message (R122, D15). -/
theorem Session.step_none {s : Session} {key : Word} (hkey : s.key = some key)
    (h : s.channel.inbound.head?.join = none) :
    s.step =
      if key = 0 ∧ s.decodesNone = true then s.examine key [] { s.channel with inbound := s.channel.inbound.tail }
      else .next { s with channel := { s.channel with inbound := s.channel.inbound.tail } } := by
  rw [s.step_awaiting key hkey, Session.wait, Channel.receive_eq, h]

/-- A poll that finds a message, as an equation: the message is examined and discarded (R122, R137). -/
theorem Session.step_message {s : Session} {key : Word} {m : Message} {rest : List (Option Message)}
    (hkey : s.key = some key) (hin : s.channel.inbound = some m :: rest) :
    s.step = .next { s with
      codec := { s.codec with msgIn := unpresentedMessage, recOut := none }
      key := if (decRecord s.codec.cfg m).w0 = key then none else some key
      channel := { s.channel with inbound := rest } } := by
  rw [s.step_awaiting key hkey, s.wait_message key m rest hin, s.examine_eq]

/-- A message at the head of the inbound list, in the form of the list. -/
theorem eq_cons_of_head_join {inbound : List (Option Message)} {m : Message} (h : inbound.head?.join = some m) :
    inbound = some m :: inbound.tail :=
  List.eq_cons_of_mem_head? (Option.join_eq_some_iff.1 h)

/-- With the constants `c` and the reading `decodesNone` (D15), the answer `a` of `receive` does not end a wait for `key`. -/
def keepsWaiting (c : Config) (decodesNone : Bool) (key : Word) : (a : Option Message) → Prop
  | none => key ≠ 0 ∨ decodesNone = false
  | some m => (decRecord c m).w0 ≠ key

/-- One such answer is consumed, and at most the ports of the block are not as they were. -/
theorem Session.step_keepsWaiting {s : Session} {key : Word} (hkey : s.key = some key)
    (h : keepsWaiting s.codec.cfg s.decodesNone key s.channel.inbound.head?.join) :
    ∃ b, b.cfg = s.codec.cfg ∧
      s.step = .next { s with codec := b, channel := { s.channel with inbound := s.channel.inbound.tail } } := by
  cases ha : s.channel.inbound.head?.join with
  | none =>
    rw [ha, keepsWaiting, ← Bool.not_eq_true, ← not_and_or] at h
    exact ⟨s.codec, rfl, by rw [Session.step_none hkey ha, if_neg h]⟩
  | some m =>
    rw [ha, keepsWaiting] at h
    refine ⟨{ s.codec with msgIn := unpresentedMessage, recOut := none }, rfl, ?_⟩
    rw [Session.step_message hkey (eq_cons_of_head_join ha), if_neg h, ← hkey]

/-- Any number of such answers, those past the end of the inbound list among them. -/
theorem Session.run_keepsWaiting {s : Session} {key : Word} (hkey : s.key = some key) (n : Nat)
    (h : ∀ i < n, keepsWaiting s.codec.cfg s.decodesNone key s.channel.inbound[i]?.join) :
    ∃ b, b.cfg = s.codec.cfg ∧
      s.run n = .next { s with codec := b, channel := { s.channel with inbound := s.channel.inbound.drop n } } := by
  induction n with
  | zero => exact ⟨s.codec, rfl, rfl⟩
  | succ n ih =>
    obtain ⟨b, hcfg, hrun⟩ := ih fun i hi => h i (Nat.lt_succ_of_lt hi)
    have hlast := h n n.lt_succ_self
    rw [← hcfg, ← List.head?_drop] at hlast
    obtain ⟨b', hcfg', hstep⟩ := Session.step_keepsWaiting
      (s := { s with codec := b, channel := { s.channel with inbound := s.channel.inbound.drop n } }) hkey hlast
    exact ⟨b', hcfg'.trans hcfg, by rw [Session.run_add 1 hrun, Session.run_one, hstep, List.tail_drop]⟩

/-- Settles O38: the answers before the reply keep the wait on, and the reply ends it. -/
theorem waitEndsAtTheFirstMatchingReply : Obligations.WaitEndsAtTheFirstMatchingReply := by
  rintro s key others rest m V hkey hin hnone hothers ⟨c, hdec, hV⟩ hmatch
  have hwait : ∀ i < others.length, keepsWaiting s.codec.cfg s.decodesNone key s.channel.inbound[i]?.join := by
    intro i hlt
    have hmem := List.getElem_mem hlt
    rw [hin, List.getElem?_append_left hlt, List.getElem?_eq_getElem hlt, Option.join_some]
    cases ha : others[i] with
    | none => exact hnone (ha ▸ hmem)
    | some x =>
      obtain ⟨c, W, hx, hW, hne⟩ := hothers x (ha ▸ hmem)
      cases hx
      cases hW
      exact hne
  refine ⟨fun n hn => ?_, ?_⟩
  · obtain ⟨b, -, hrun⟩ := Session.run_keepsWaiting hkey n fun i hi => hwait i (hi.trans_le hn)
    exact ⟨_, hrun, hkey, rfl⟩
  · obtain ⟨b, hcfg, hrun⟩ := Session.run_keepsWaiting hkey _ hwait
    rw [hin, List.drop_left] at hrun
    cases hdec
    cases hV
    rw [Session.run_add 1 hrun, Session.run_one]
    exact ⟨_, Session.step_message hkey rfl, if_pos (by rwa [hcfg]), rfl, rfl, rfl⟩

/-- Settles O39: on a zero key the empty message is examined, whose word 0 is zero (R96); on others the wait goes on. -/
theorem noneIsPolledAgainUnlessTheKeyIsZero : Obligations.NoneIsPolledAgainUnlessTheKeyIsZero := by
  intro s key rest hkey hin
  rw [Session.step_none hkey (by rw [hin]; rfl), hin, List.tail_cons]
  by_cases hzero : key = 0 ∧ s.decodesNone = true
  · rw [if_pos hzero, if_pos hzero, s.examine_eq, decRecord_nil, hzero.1]
    exact ⟨_, rfl, rfl, rfl, rfl, rfl⟩
  · rw [if_neg hzero, if_neg hzero]
    exact ⟨_, rfl, rfl, rfl, rfl, hkey⟩

/-- Settles O40: every poll finds nothing, past the end of the inbound list too, and a poll that finds nothing keeps the
wait on. -/
theorem silentDeviceIsWaitedForWithoutEnd : Obligations.SilentDeviceIsWaitedForWithoutEnd := by
  intro s key hkey hagain hsilent n
  have hwait : ∀ i < n, keepsWaiting s.codec.cfg s.decodesNone key s.channel.inbound[i]?.join := by
    intro i _
    cases hget : s.channel.inbound[i]? with
    | none => exact hagain
    | some x =>
      rw [hsilent x (List.mem_of_getElem? hget)]
      exact hagain
  obtain ⟨b, -, hrun⟩ := Session.run_keepsWaiting hkey n hwait
  exact ⟨_, hrun, hkey, rfl, rfl, rfl⟩

/-- Settles O41: a step in a wait is a poll that finds nothing, or examines a message, the empty one for `none` on a zero
key. -/
theorem nothingIsSentWhileAnAcknowledgementIsAwaited : Obligations.NothingIsSentWhileAnAcknowledgementIsAwaited := by
  intro s t key hkey hstep
  cases ha : s.channel.inbound.head?.join with
  | none =>
    rw [Session.step_none hkey ha] at hstep
    by_cases hzero : key = 0 ∧ s.decodesNone = true
    · rw [if_pos hzero, s.examine_eq, decRecord_nil] at hstep
      cases hstep
      have hnoMessage : ∀ m, s.channel.inbound.head? ≠ some (some m) := fun m hm => by simp [hm] at ha
      exact ⟨rfl, rfl, rfl, rfl, .inr (.inr ⟨if_pos hzero.1.symm, hzero.1, hzero.2, hnoMessage⟩)⟩
    · rw [if_neg hzero] at hstep
      cases hstep
      exact ⟨rfl, rfl, rfl, rfl, .inl hkey⟩
  | some m =>
    have hin := eq_cons_of_head_join ha
    rw [Session.step_message hkey hin] at hstep
    cases hstep
    by_cases hmatch : (decRecord s.codec.cfg m).w0 = key
    · exact ⟨rfl, rfl, rfl, rfl, .inr (.inl ⟨if_pos hmatch, m, _, _, _, hin, exec_dec m s.codec, rfl, hmatch⟩)⟩
    · exact ⟨rfl, rfl, rfl, rfl, .inl (if_neg hmatch)⟩

/-! ## The block in a session (R11, R137, R146) -/

/-- Settles O43: an examined message is withdrawn and its record taken, a request's record withdrawn and its frame taken;
with the ports empty before, that is the block as it was. -/
theorem sessionStepsLeaveNothingInTheBlock : Obligations.SessionStepsLeaveNothingInTheBlock := by
  intro s t hstep hrecIn hmsgIn hmsgOut hrecOut
  rcases s.step_cases with ⟨key, ch, -, -, -, -, -, -, hnext⟩ | ⟨key, m, ch, -, -, -, -, -, hnext⟩ | ⟨-, -, hnext⟩ |
    ⟨q, rest, -, -, hnext⟩
  · cases hnext.symm.trans hstep
    rfl
  · rw [s.examine_eq, ← hmsgIn, ← hrecOut] at hnext
    cases hnext.symm.trans hstep
    rfl
  · cases hnext.symm.trans hstep
    rfl
  · rw [s.send_eq, ← hrecIn, ← hmsgOut] at hnext
    cases hnext.symm.trans hstep
    rfl

/-! ## A flow whose requests are acknowledged (R123, R126 to R132) -/

/-- Each awaited request has its own acknowledgement, in their order. -/
theorem acknowledgements_cons (c : Config) (reply : Request → Record) (q : Request) (rest : List Request) :
    acknowledgements c reply (q :: rest) = acknowledgements c reply [q] ++ acknowledgements c reply rest := by
  rw [acknowledgements, ← List.singleton_append, List.filter_append, List.map_append]
  rfl

/-- A request is sent, and is acknowledged at the first poll if it is awaited. -/
theorem Session.run_acknowledged {s : Session} {q : Request} {rest : List Request} {more : List (Option Message)}
    {reply : Request → Record} (hreply : (reply q).w0 = q.record.w0) (hkey : s.key = none) (htodo : s.todo = q :: rest)
    (hin : s.channel.inbound = acknowledgements s.codec.cfg reply [q] ++ more) :
    ∃ n t, s.run n = .next t ∧ t.key = none ∧ t.todo = rest ∧ t.codec.cfg = s.codec.cfg ∧
      t.channel = { s.channel with inbound := more, sent := s.channel.sent ++ [encFrame s.codec.cfg q.record] } := by
  obtain ⟨u, hsend, hkeyU, htodoU, hcfgU, hchannelU⟩ : ∃ u, s.step = .next u ∧
      u.key = (if q.awaited then some q.record.w0 else none) ∧ u.todo = rest ∧ u.codec.cfg = s.codec.cfg ∧
      u.channel = s.channel.send (encFrame s.codec.cfg q.record) :=
    ⟨_, (s.step_sending q rest hkey htodo).trans (s.send_eq q rest), rfl, rfl, rfl, rfl⟩
  cases hq : q.awaited with
  | false =>
    obtain rfl : more = s.channel.inbound := by simpa [acknowledgements, hq] using hin.symm
    rw [hq, if_neg Bool.false_ne_true] at hkeyU
    exact ⟨1, u, (Session.run_one s).trans hsend, hkeyU, htodoU, hcfgU, hchannelU⟩
  | true =>
    have hreceive : u.channel.inbound = some (encFrame s.codec.cfg (reply q)) :: more := by
      simpa [hchannelU, Channel.send, acknowledgements, hq] using hin
    rw [hq, if_pos rfl] at hkeyU
    have hmatch : (decRecord u.codec.cfg (encFrame s.codec.cfg (reply q))).w0 = q.record.w0 := by
      rw [hcfgU, decRecord_encFrame, hreply]
    exact ⟨2, _, (Session.run_succ_of_next 1 hsend).trans ((Session.run_one u).trans (Session.step_message hkeyU hreceive)),
      if_pos hmatch, htodoU, hcfgU, by rw [hchannelU, Channel.send]⟩

/-- What is left of a sequence of requests, each acknowledged if it is awaited, is sent, and the session is done. -/
theorem Session.run_acknowledgements {reply : Request → Record} (hreply : ∀ q, (reply q).w0 = q.record.w0)
    (qs : List Request) :
    ∀ s : Session, s.key = none → s.todo = qs → s.channel.inbound = acknowledgements s.codec.cfg reply qs →
      ∃ n t, s.run n = .next t ∧ t.phase = .done ∧ t.key = none ∧ t.todo = [] ∧
        t.channel = ⟨false, [], s.channel.sent ++ qs.map fun q => encFrame s.codec.cfg q.record⟩ := by
  induction qs with
  | nil =>
    intro s hkey htodo hin
    refine ⟨1, s.finish, (Session.run_one s).trans (s.step_finished hkey htodo), rfl, hkey, htodo, ?_⟩
    simp [Session.finish, Channel.release, hin, acknowledgements]
  | cons q rest ih =>
    intro s hkey htodo hin
    obtain ⟨n, u, hrun, hkey', htodo', hcfg, hchannel⟩ := Session.run_acknowledged (hreply q) hkey htodo
      (hin.trans (acknowledgements_cons s.codec.cfg reply q rest))
    obtain ⟨n', t, hrun', hdone, hkeyEnd, htodoEnd, hend⟩ := ih u hkey' htodo' (by rw [hchannel, hcfg])
    exact ⟨n + n', t, (Session.run_add n' hrun).trans hrun', hdone, hkeyEnd, htodoEnd, by simp [hend, hchannel, hcfg]⟩

/-- Settles O45: the run of `Session.run_acknowledgements` from the start of the session. -/
theorem acknowledgedFlowSendsEveryRequestInOrder : Obligations.AcknowledgedFlowSendsEveryRequestInOrder := by
  intro codec k f reply hreply
  obtain ⟨n, t, hrun, hdone, hkey, htodo, hchannel⟩ := Session.run_acknowledgements hreply (f.requests k)
    (Session.start codec k f ⟨false, acknowledgements codec.cfg reply (f.requests k), []⟩) rfl rfl rfl
  refine ⟨n, t, hrun, hdone, hkey, htodo, ?_⟩
  rw [hchannel]
  exact ⟨rfl, rfl, by simp [exec_enc, nextOf, Session.start, Channel.acquire]⟩

/-! ## The requests of a flow (R127 to R130, R145) -/

/-- Four bytes packed big-endian, as a number (R46, R128). -/
theorem chunkWord_toNat (image : List Byte) (n q : Nat) :
    (chunkWord image n q).toNat =
      (image.getD (16 * n + 4 * q) 0).toNat * 2 ^ 24 + (image.getD (16 * n + 4 * q + 1) 0).toNat * 2 ^ 16 +
        (image.getD (16 * n + 4 * q + 2) 0).toNat * 2 ^ 8 + (image.getD (16 * n + 4 * q + 3) 0).toNat := by
  have append_byte : ∀ {w : Nat} (x : BitVec w) (b : Byte), (x ++ b).toNat = x.toNat * 2 ^ 8 + b.toNat := fun x b => by
    rw [BitVec.toNat_append, ← Nat.shiftLeft_add_eq_or_of_lt b.isLt, Nat.shiftLeft_eq]
  rw [chunkWord, append_byte, append_byte, append_byte]
  simp only [imageByte]
  ring

theorem word_chunkRecord (k : ProtocolConsts) (image : List Byte) (n : Nat) {i : Nat} (hi : i < 4) :
    word (chunkRecord k image n) (1 + i) = chunkWord image n i := by
  interval_cases i <;> rfl

theorem word_sampleRecord (k : ProtocolConsts) (ss : List Int) (n : Nat) {i : Nat} (hi : i < 5) :
    word (sampleRecord k ss n) (1 + i) = sampleAt ss (5 * n + i) := by
  interval_cases i <;> rfl

/-- A sample modulo `2^32` (R145, D20). -/
theorem sampleAt_toNat (ss : List Int) (i : Nat) : ((sampleAt ss i).toNat : Int) = ss.getD i 0 % 2 ^ 32 := by
  rw [sampleAt, sampleWord, BitVec.toNat_ofInt]
  omega

/-- Settles O46: the chunks are those of `Flow.requests`, `ceil(N/16)` of them. -/
theorem firmwareIsSentInPaddedChunks : Obligations.FirmwareIsSentInPaddedChunks := by
  intro k image
  refine ⟨(List.range (chunkCount image)).map fun n => ⟨chunkRecord k image n, .writing, true⟩, rfl, ?_, ?_, ?_⟩
  · simp only [List.length_map, List.length_range, chunkCount]
    omega
  · simp only [List.length_map, List.length_range, chunkCount]
    omega
  · intro n q hq
    obtain ⟨-, rfl⟩ : n < chunkCount image ∧ _ = q := by simpa [List.getElem?_eq_some_iff] using hq
    refine ⟨rfl, rfl, rfl, fun i hi => ?_⟩
    rw [word_chunkRecord k image n hi, chunkWord_toNat]

/-- Settles O47: the blocks are those of `Flow.requests`, and their count is the smaller of `ceil(N/5)` and the limit. -/
theorem samplesAreSentInTaggedBlocks : Obligations.SamplesAreSentInTaggedBlocks := by
  intro k ss
  have hcount : ((Flow.samples ss).requests k).length = min ((ss.length + 4) / 5) k.blockLimit := by
    simp [Flow.requests, blockCount]
  rw [hcount]
  refine ⟨by omega, by omega, by omega, fun n q hq => ?_⟩
  obtain ⟨-, rfl⟩ : n < blockCount k ss ∧ _ = q := by simpa [Flow.requests, List.getElem?_eq_some_iff] using hq
  refine ⟨rfl, by simp [sampleRecord], fun i hi => ?_⟩
  rw [word_sampleRecord k ss n hi, sampleAt_toNat]

end Sys2Proof.Machine

/-! SUPPORT. The statement of 60_exceptions.md: which steps are refused. -/

namespace Sys2Proof.Machine

/-- Everything a refused act of the environment can be: an output without value is taken, or an emission is let go on after a
change of its record (R150, U10, U12). -/
theorem runEvent_refused_cases {e : Event} {s : State} {r : Refusal} (h : runEvent e s = .refused r) :
    (e = .takeMessage ∧ s.msgOut = none) ∨ (e = .takeRecord ∧ s.recOut = none) ∨
    (e = .emitByte ∧ s.encSer.changed = true) := by
  cases e with
  | request i =>
    obtain ⟨t, -, hrun⟩ := runEvent_request_note i s
    cases hrun.symm.trans h
  | presentRecord r => cases h
  | emitByte =>
    cases hch : s.encSer.changed with
    | true => exact .inr (.inr ⟨rfl, rfl⟩)
    | false => cases (emitByte_of_unchanged s hch).symm.trans h
  | receiveByte b => cases h
  | endOfMessage => cases h
  | takeMessage =>
    cases hout : s.msgOut with
    | none => exact .inl ⟨rfl, rfl⟩
    | some m => cases (takeMessage_of_some hout).symm.trans h
  | takeRecord =>
    cases hout : s.recOut with
    | none => exact .inr (.inl ⟨rfl, rfl⟩)
    | some V => cases (takeRecord_of_some hout).symm.trans h
  | reset => cases h

/-- Settles O30: there is no reason to fault; a refused step is one of the three acts, and each of them is refused. -/
theorem onlyMisuseByTheEnvironmentIsRefused : Obligations.OnlyMisuseByTheEnvironmentIsRefused := by
  refine fun s => ⟨nofun, ?refused_only, ?refused_if⟩
  case refused_only =>
    rintro ⟨r, h⟩
    cases hin : s.inputs with
    | nil => cases (step_idle s hin).symm.trans h
    | cons e rest =>
      rw [step_event s e rest hin] at h
      rcases runEvent_refused_cases h with ⟨rfl, hout⟩ | ⟨rfl, hout⟩ | ⟨rfl, hch⟩
      · exact ⟨rest, .inl ⟨rfl, hout⟩⟩
      · exact ⟨rest, .inr (.inl ⟨rfl, hout⟩)⟩
      · exact ⟨rest, .inr (.inr ⟨rfl, hch⟩)⟩
  case refused_if =>
    obtain ⟨-, -, hnoMessage, hnoRecord⟩ := takingAnOutputEmptiesItsPort
    rintro ⟨rest, ⟨hin, hout⟩ | ⟨hin, hout⟩ | ⟨hin, hch⟩⟩
    · exact ⟨_, hnoMessage s rest hin hout⟩
    · exact ⟨_, hnoRecord s rest hin hout⟩
    · exact ⟨_, step_emitByte_of_changed hin hch⟩

end Sys2Proof.Machine

/-! SUPPORT. The statements of 70_reset_and_hazards.md: reset in the middle of anything, and a malformed reply in a wait. -/

namespace Sys2Proof.Machine

/-! ## Reset (R24, R165) -/

/-- Reset asked for next, as an equation: the state is the reset state of the same constants, with what else is asked. -/
theorem step_reset {s : State} {rest : List Event} (hin : s.inputs = .reset :: rest) :
    step s = .next ((State.resetWith s.cfg).setInputs rest) :=
  step_event s .reset rest hin

/-- Settles O26: the fields of the state of `step_reset`, written out. -/
theorem resetAbandonsWhatIsInProgress : Obligations.ResetAbandonsWhatIsInProgress :=
  fun _ _ hin => step_reset hin

/-! ## A malformed reply (R135, R173) -/

/-- Settles O42: the reply is examined and consumed; it reads as `ZERO6` (O7), so it matches the key exactly if that is
zero. -/
theorem malformedReplyEndsAWaitIffTheKeyIsZero : Obligations.MalformedReplyEndsAWaitIffTheKeyIsZero := by
  intro s key m rest hkey hin hbad
  have hreject := decRejectsMalformedMessages m s.codec hbad
  have hzero : decRecord s.codec.cfg m = zero6 := by simpa [exec_dec] using hreject
  have hword : (decRecord s.codec.cfg m).w0 = 0 := by rw [hzero, zero6]
  refine ⟨_, Session.step_message hkey hin, rfl, ?_⟩
  by_cases hmatch : (decRecord s.codec.cfg m).w0 = key
  · exact iff_of_true (if_pos hmatch) (hmatch.symm.trans hword)
  · exact iff_of_false ((if_neg hmatch).trans_ne (Option.some_ne_none key)) fun hkey0 => hmatch (hword.trans hkey0.symm)

end Sys2Proof.Machine
